-- ==== Sys2Proof/Word.lean ====
section
/-! DEFINITION. The word types of the ui512 CORE (00_scope.md R7): a byte of memory, a 64-bit interface
register, a 64-bit limb and a 512-bit wide value. -/

namespace Sys2Proof

/-- One byte of memory, the smallest addressable unit (R50, R51). -/
abbrev Byte := BitVec 8

/-- A 64-bit interface register, scalar operand or command word (R7, R22). -/
abbrev Word := BitVec 64

/-- One of the eight 64-bit elements of a wide value (R12, R17). -/
abbrev Limb := BitVec 64

/-- A 512-bit unsigned value, bit 0 the least significant (R7, R10, R11). -/
abbrev Wide := BitVec 512

end Sys2Proof
end

