-- ==== Sys2Proof/Config.lean ====
section
/-! DEFINITION. What an implementation fixes (R8, R9) and the free values. The parameters are plain data, so that
State can carry them as the arguments R9 asks for; nothing but the values at `State.reset` is chosen here. -/

namespace Sys2Proof

/-- The build-time option VARIANT (R8): whether buffers must be 64-byte aligned. -/
inductive Variant where
  | scalar
  | vector
  deriving DecidableEq, Repr

/-- The kind of a memory-port access: R reads a source, W writes a destination (R9, R59). -/
inductive AccessKind where
  | read
  | write
  deriving DecidableEq, Repr

/-- A range of memory the platform admits: `size` bytes from `base`, each direction allowed or not.
The predicate MemAdmit of R9 is a list of these. DESIGN CHOICE, safe, log entry 3. -/
structure Region where
  base : Nat
  size : Nat
  readable : Bool
  writable : Bool
  deriving DecidableEq, Repr

/-- The platform's parameters of R9. VARIANT is not here: its one home is the field CFG.VARIANT of State (R31). -/
structure Platform where
  /-- ADDR_WIDTH, 1..64 -/
  addrWidth : Nat
  /-- CORE_BASE, 64-byte aligned -/
  coreBase : Nat
  /-- MemAdmit -/
  regions : List Region
  deriving DecidableEq, Repr

/-- A byte that holds an unspecified value (R238, R239, R262): the `n`-th one drawn. It has no body, so nothing can
be proved of its value. Safe, log entry 5. -/
opaque Config.freeByte : Nat → Byte

/-- The platform at `State.reset`: the example platform of 95_test_vectors.md section 0.
DESIGN CHOICE, unsafe, log entry 2: R9 fixes no value. -/
def Config.platform : Platform where
  addrWidth := 32
  coreBase := 0xFFFF0000
  regions := [{ base := 0x1000, size := 0x200, readable := true, writable := true }]

/-- VARIANT at `State.reset`, of the same example platform. DESIGN CHOICE, unsafe, log entry 2. -/
def Config.variant : Variant := .vector

end Sys2Proof
end

