-- ==== Sys2Proof/Syntax.lean ====
section
/-! DEFINITION. The instruction set: one constructor per row of spec/opcode_table.json (R81), and the command lines and
pseudo-instructions of the spec's assembler (R87, R89). A command word has no operand field (R83): its operands are
the ARG registers, so no constructor takes an argument. -/

namespace Sys2Proof

/-- The twenty commands of R81, in the table's order. -/
inductive Instr where
  | zero
  | copy
  | sets
  | cmp
  | cmps
  | add
  | adds
  | sub
  | subs
  | and
  | or
  | xor
  | not
  | shr
  | shl
  | msb
  | lsb
  | mul
  | mullo
  | div
  deriving DecidableEq, Repr

/-- An operand of a command line (R87): `[addr]` names a buffer, `#n` is a scalar. -/
inductive LineOperand where
  | buffer (addr : Nat)
  | scalar (n : Nat)
  deriving DecidableEq, Repr

/-- A command line `MNEMONIC op0, op1, ...` (R87). -/
structure Line where
  instr : Instr
  operands : List LineOperand
  deriving DecidableEq, Repr

/-- The pseudo-instructions of R89, each another spelling of one command line. -/
inductive Pseudo where
  | clr (d : Nat)
  | mov (d s : Nat)
  | ldi (d v : Nat)
  | inc (d a : Nat)
  | dec (d a : Nat)
  | tstz (a : Nat)
  | bitlen (a : Nat)
  deriving DecidableEq, Repr

end Sys2Proof
end

