-- ==== Sys2Proof/Decode.lean ====
section
/-! DEFINITION. Decoding and encoding a command word (R80, R81, R84), and the argument map (R85). The decoder looks only
at the word: OPC in bits 7:0, RSVD in bits 63:8, which must be 0. -/

namespace Sys2Proof

/-- Why a command word is rejected. `truncated` is of the byte stream only (fewer than 8 bytes); the other two are the
illegal words of R84, which a command port turns into ILLEGAL_COMMAND (R243). -/
inductive Reject where
  | truncated
  | reservedNonzero
  | unassignedOpcode
  deriving DecidableEq, Repr

/-- The OPC field, bits 7:0 (R80). -/
def opcField (w : Word) : BitVec 8 := w.extractLsb' 0 8

/-- The RSVD field, bits 63:8 (R80). -/
def rsvdField (w : Word) : BitVec 56 := w.extractLsb' 8 56

/-- The opcode map (R81); every value not listed is unassigned. -/
def decodeOpc (opc : BitVec 8) : Option Instr :=
  match opc.toNat with
  | 0x01 => some .zero
  | 0x02 => some .copy
  | 0x03 => some .sets
  | 0x04 => some .cmp
  | 0x05 => some .cmps
  | 0x10 => some .add
  | 0x11 => some .adds
  | 0x12 => some .sub
  | 0x13 => some .subs
  | 0x20 => some .and
  | 0x21 => some .or
  | 0x22 => some .xor
  | 0x23 => some .not
  | 0x30 => some .shr
  | 0x31 => some .shl
  | 0x40 => some .msb
  | 0x41 => some .lsb
  | 0x50 => some .mul
  | 0x51 => some .mullo
  | 0x52 => some .div
  | _ => none

/-- Decoding a command word (R84): illegal if RSVD is not 0 or OPC is unassigned. -/
def decode (w : Word) : Except Reject Instr :=
  if rsvdField w = 0 then
    match decodeOpc (opcField w) with
    | some i => .ok i
    | none => .error .unassignedOpcode
  else .error .reservedNonzero

/-- The number whose little-endian bytes these are, the first byte the least significant (R51). -/
def ofBytesLE : List Byte → Nat
  | [] => 0
  | b :: rest => b.toNat + 256 * ofBytesLE rest

/-- Byte `k` of a number, byte 0 the least significant: bits 8k+7:8k (R51). -/
def byteOf (v k : Nat) : Byte := BitVec.ofNat 8 (v / 2 ^ (8 * k))

/-- The `n` low bytes of a number, least significant first (R51). -/
def bytesLE (n v : Nat) : List Byte := (List.range n).map (byteOf v)

/-- Decoding a stream of bytes: a command word is the first eight, little-endian (R51, R80). Total on any bytes; it
answers the command and the rest of the stream. -/
def decodeBytes (bytes : List Byte) : Except Reject (Instr × List Byte) :=
  if bytes.length < 8 then .error .truncated
  else (decode (BitVec.ofNat 64 (ofBytesLE (bytes.take 8)))).map fun i => (i, bytes.drop 8)

/-- The OPC of a command (R81). -/
def Instr.opc : Instr → BitVec 8
  | .zero => 0x01
  | .copy => 0x02
  | .sets => 0x03
  | .cmp => 0x04
  | .cmps => 0x05
  | .add => 0x10
  | .adds => 0x11
  | .sub => 0x12
  | .subs => 0x13
  | .and => 0x20
  | .or => 0x21
  | .xor => 0x22
  | .not => 0x23
  | .shr => 0x30
  | .shl => 0x31
  | .msb => 0x40
  | .lsb => 0x41
  | .mul => 0x50
  | .mullo => 0x51
  | .div => 0x52

/-- The command word of a command: zext_64 of its OPC, RSVD 0 (R80, R88). -/
def encode (i : Instr) : Word := i.opc.setWidth 64

/-- The command word as the eight bytes a host stores at CMD (R51). -/
def encodeBytes (i : Instr) : List Byte := bytesLE 8 (encode i).toNat

/-- What an ARG register holds for a command (R85): W a destination buffer, R a source buffer, S a scalar; an unused
ARG is neither read nor checked. -/
inductive ArgKind where
  | dest
  | src
  | scalar
  | unused
  deriving DecidableEq, Repr

/-- One row of the argument map: the kinds of ARG0..ARG3. -/
structure ArgMap where
  arg0 : ArgKind
  arg1 : ArgKind
  arg2 : ArgKind
  arg3 : ArgKind
  deriving DecidableEq, Repr

/-- The argument map of R85. -/
def Instr.argMap : Instr → ArgMap
  | .zero => ⟨.dest, .unused, .unused, .unused⟩
  | .copy => ⟨.dest, .src, .unused, .unused⟩
  | .sets => ⟨.dest, .scalar, .unused, .unused⟩
  | .cmp => ⟨.src, .src, .unused, .unused⟩
  | .cmps => ⟨.src, .scalar, .unused, .unused⟩
  | .add => ⟨.dest, .src, .src, .unused⟩
  | .adds => ⟨.dest, .src, .scalar, .unused⟩
  | .sub => ⟨.dest, .src, .src, .unused⟩
  | .subs => ⟨.dest, .src, .scalar, .unused⟩
  | .and => ⟨.dest, .src, .src, .unused⟩
  | .or => ⟨.dest, .src, .src, .unused⟩
  | .xor => ⟨.dest, .src, .src, .unused⟩
  | .not => ⟨.dest, .src, .unused, .unused⟩
  | .shr => ⟨.dest, .src, .scalar, .unused⟩
  | .shl => ⟨.dest, .src, .scalar, .unused⟩
  | .msb => ⟨.src, .unused, .unused, .unused⟩
  | .lsb => ⟨.src, .unused, .unused, .unused⟩
  | .mul => ⟨.dest, .dest, .src, .src⟩
  | .mullo => ⟨.dest, .src, .src, .unused⟩
  | .div => ⟨.dest, .dest, .src, .src⟩

/-- The kind of ARG `j` in a row. -/
def ArgMap.kind (m : ArgMap) (j : Fin 4) : ArgKind :=
  match j with
  | 0 => m.arg0
  | 1 => m.arg1
  | 2 => m.arg2
  | 3 => m.arg3

/-- The kind of access a buffer ARG asks for: none for a scalar or an unused ARG. -/
def ArgKind.access : ArgKind → Option AccessKind
  | .dest => some .write
  | .src => some .read
  | .scalar => none
  | .unused => none

/-- The buffer ARGs in increasing order with their access kinds: the list B of R86. -/
def ArgMap.buffers (m : ArgMap) : List (Fin 4 × AccessKind) :=
  [0, 1, 2, 3].filterMap fun j => (m.kind j).access.map fun k => (j, k)

/-- The destination ARGs in increasing order. -/
def ArgMap.dests (m : ArgMap) : List (Fin 4) :=
  [0, 1, 2, 3].filter fun j => m.kind j = .dest

/-- The command the decoder reads from a word `w` of `nbits` bits, bit 0 the least significant bit, every bit above
them 0: the word's eight little-endian bytes are given to `decodeBytes`. -/
def decodeTableWord (nbits w : Nat) : Option Instr :=
  match decodeBytes (bytesLE 8 (w % 2 ^ nbits)) with
  | .ok (i, _) => some i
  | .error _ => none

end Sys2Proof
end

