-- ==== Sys2Proof/Machine/State.lean ====
section
/-! DEFINITION. The machine's state as plain data (R20), the reasons a step can stop, and the state after reset (R35, R260).
The eight registers are CMD, ARG0..ARG3, RES, STATUS and CFG; beside them stand the memory (R34), the platform's
parameters (R9) and the model's own fields, which its step needs: what the host does next and what it read last. -/

namespace Sys2Proof.Machine

/-- The error codes of R236. Codes 5..15 are never produced, and this type has none. -/
inductive ErrCode where
  | noError
  | divideByZero
  | illegalCommand
  | alignment
  | busError
  deriving DecidableEq, Repr

/-- STATUS (R28), a read-only register held by its fields; its reserved bits are hard-wired 0 (R29), so they have no
storage. Its 64-bit word is `Status.word`. -/
structure Status where
  /-- ERR, bits 3:0 -/
  err : ErrCode
  /-- FATAL, bit 4 -/
  fatal : Bool
  /-- ERRARG, bits 9:8 -/
  errArg : Fin 4
  deriving DecidableEq, Repr

/-- STATUS at reset: ERR NONE, FATAL 0, ERRARG 0 (R35). -/
def Status.clear : Status := { err := .noError, fatal := false, errArg := 0 }

/-- Memory: (address, byte) pairs, addresses strictly rising, no byte equal to `unlistedByte`. -/
abbrev Memory := List Host.Cell

/-- What happens beside a command while it is in progress: another agent's memory access (R67, R268), the platform
changing what MemAdmit admits (R269), or the reset input (R262). -/
inductive Concurrent where
  | read (addr size : Nat)
  | write (addr : Nat) (data : List Byte)
  | remap (regions : List Region)
  | reset
  deriving DecidableEq, Repr

/-- What the outside world does to the CORE and to the memory it shares, one entry a step, in program order (R19, R67).
A write carries what else happens until it completes (R265), which matters if it starts a command. -/
inductive Event where
  /-- the host reads `size` bytes at an address of its address space -/
  | read (addr size : Nat)
  /-- host thread `thread` writes bytes from an address of its address space upward -/
  | write (thread addr : Nat) (data : List Byte) (during : List Concurrent)
  /-- the reset input, or power-on (R262) -/
  | reset
  /-- the platform changes what MemAdmit admits (R248, R269) -/
  | remap (regions : List Region)
  deriving DecidableEq, Repr

/-- The machine's state. -/
structure State where
  /-- CMD (R24) -/
  cmd : Word
  /-- ARG0 (R25) -/
  arg0 : Word
  /-- ARG1 (R25) -/
  arg1 : Word
  /-- ARG2 (R25) -/
  arg2 : Word
  /-- ARG3 (R25) -/
  arg3 : Word
  /-- RES (R26) -/
  res : Word
  /-- STATUS (R28) -/
  status : Status
  /-- CFG.VARIANT (R31), the one stored bit of CFG; its word is `cfgWord` -/
  cfgVariant : Variant
  /-- the memory the host and the CORE share (R34) -/
  mem : Memory
  /-- ADDR_WIDTH, CORE_BASE and MemAdmit (R9) -/
  platform : Platform
  /-- the model's own: how many free bytes have been drawn (DESIGN CHOICE, safe, log entry 5) -/
  draws : Nat
  /-- the model's own: the host thread that has written an ARG since the last CMD write (R250, R268;
  DEDUCED, safe, log entry 7) -/
  argOwner : Option Nat
  /-- the model's own: the bytes the last host read returned (DESIGN CHOICE, safe, log entry 1) -/
  readData : List Byte
  /-- the model's own: what the outside world does next, the next event first (DESIGN CHOICE, safe, log entry 1) -/
  pending : List Event
  deriving DecidableEq, Repr

/-- Why a step stops with a fault. Raised by a host or agent access, never by a command. -/
inductive Fault where
  /-- A host or agent access to an address that is neither in the window nor in the memory of `2^ADDR_WIDTH` bytes
  (R34): raised by `hostAccess` and `runConcurrent`. DESIGN CHOICE, log entry 8. Safe: the machine stops where the spec
  gives nothing. -/
  | noSuchMemory
  deriving DecidableEq, Repr

/-- Why a step is refused: the runs the spec tells a model to refuse. No command is among them. -/
inductive Refusal where
  /-- An instruction with no meaning yet. Raised by no arm of this model. Safe. -/
  | notModelled (mnemonic : String)
  /-- A host access to the register window that is not an aligned 64-bit one (R23). Raised by `hostAccess`. Safe. -/
  | windowAccess
  /-- Another agent touches a command's buffers, or the window, while the command is in progress (R67, R268).
  Raised by `runDuring` and `runConcurrent`. Safe. -/
  | concurrentAccess
  /-- The admission of a command's buffer changes while the command is in progress (R269, 93 U5). Raised by `runDuring`.
  Safe. -/
  | admissionChanged
  /-- A host thread writes ARG or CMD between another thread's ARG writes and its CMD write (R250, R268).
  Raised by `writeRegister`. Safe. -/
  | interleavedThreads
  deriving DecidableEq, Repr

/-- What a byte of memory that nothing has written reads as. DESIGN CHOICE, unsafe, log entry 4: R34 leaves the memory's
contents to the platform. -/
def unlistedByte : Byte := 0

/-- The machine right after reset on a platform (R35, R260): every register 0 but CFG.VARIANT, memory with nothing
listed, no event pending. -/
def State.resetOn (variant : Variant) (platform : Platform) : State where
  cmd := 0
  arg0 := 0
  arg1 := 0
  arg2 := 0
  arg3 := 0
  res := 0
  status := Status.clear
  cfgVariant := variant
  mem := []
  platform := platform
  draws := 0
  argOwner := none
  readData := []
  pending := []

/-- The machine right after reset, on the platform `Config` names. -/
def State.reset : State := State.resetOn Config.variant Config.platform

end Sys2Proof.Machine
end

