-- ==== Sys2Proof/Machine/Flags.lean ====
section
/-! DEFINITION. The CORE has no flag register (R32): a carry, a borrow, an overflow indicator, a comparison and a bit
position are results, written to RES. This file says how each stands in RES (R27), and how STATUS and CFG read. -/

namespace Sys2Proof.Machine

/-- zext_64 of a carry, a borrow or an overflow indicator (R14, R27). -/
def resOfBit (b : Bool) : Word := if b then 1 else 0

/-- sext_64 of a comparison or a bit position: 64-bit two's complement (R14, R27). -/
def resOfInt (v : Int) : Word := BitVec.ofInt 64 v

/-- The number of an error code (R236). -/
def ErrCode.code : ErrCode → Nat
  | .noError => 0
  | .divideByZero => 1
  | .illegalCommand => 2
  | .alignment => 3
  | .busError => 4

/-- The codes that set FATAL and record ERRARG: ALIGNMENT and BUS_ERROR (R30, R236). -/
def ErrCode.isFatal : ErrCode → Bool
  | .noError => false
  | .divideByZero => false
  | .illegalCommand => false
  | .alignment => true
  | .busError => true

/-- STATUS as the host reads it (R28): ERR in bits 3:0, FATAL in bit 4, ERRARG in bits 9:8, every other bit 0. -/
def Status.word (st : Status) : Word :=
  BitVec.ofNat 64 (st.err.code + 2 ^ 4 * st.fatal.toNat + 2 ^ 8 * st.errArg.val)

/-- CFG as the host reads it (R31): VARIANT in bit 0, every other bit 0. -/
def cfgWord : Variant → Word
  | .scalar => 0
  | .vector => 1

end Sys2Proof.Machine
end

