-- ==== Sys2Proof/Machine/Ops.lean ====
section
/-! DEFINITION. The named operations over memory and registers: byte and buffer reads and writes (R50 to R54), limbs (R12),
admission (R59), the register accessors (R22), recording an error in STATUS (R30, R237), the free bytes of a fatal error
(R238, R239), and the CORE's reset (R260). -/

namespace Sys2Proof.Machine

/-! ### Memory, one byte at a time -/

/-- The byte at an address. -/
def Memory.read (m : Memory) (a : Nat) : Byte :=
  match m with
  | [] => unlistedByte
  | c :: rest => if c.1 = a then c.2 else Memory.read rest a

/-- The list without an entry for an address. -/
def Memory.erase (m : Memory) (a : Nat) : Memory :=
  m.filter fun c => c.1 != a

/-- A cell put before the first entry with a higher address. -/
def Memory.insert (m : Memory) (c : Host.Cell) : Memory :=
  match m with
  | [] => [c]
  | d :: rest => if c.1 < d.1 then c :: d :: rest else d :: Memory.insert rest c

/-- Storing one byte. A byte equal to what an unlisted address reads as is not listed, so that equal memories are equal
lists. -/
def Memory.write (m : Memory) (a : Nat) (b : Byte) : Memory :=
  if b = unlistedByte then m.erase a else (m.erase a).insert (a, b)

/-- Storing bytes at rising addresses. -/
def Memory.store (m : Memory) (a : Nat) (data : List Byte) : Memory :=
  match data with
  | [] => m
  | b :: rest => Memory.store (m.write a b) (a + 1) rest

/-- The `n` bytes from an address upward. -/
def Memory.bytes (m : Memory) (a n : Nat) : List Byte :=
  (List.range n).map fun k => m.read (a + k)

/-- The canonical form of memory: addresses strictly rising, nothing listed that reads as an unlisted byte. -/
abbrev Memory.wf (m : Memory) : Prop :=
  m.Pairwise (fun c d => c.1 < d.1) ∧ ∀ c ∈ m, c.2 ≠ unlistedByte

/-! ### Limbs, buffers -/

/-- Limb `i` of a wide value: bits 64*(7-i)+63 : 64*(7-i) (R12). -/
def limb (v : Wide) (i : Nat) : Limb := v.extractLsb' (64 * (7 - i)) 64

/-- The limbs in index order, limb 0 (the most significant) first (R12). -/
def limbs (v : Wide) : List Limb := (List.range 8).map (limb v)

/-- The number the limbs write, the first the most significant (R12). -/
def natOfLimbs (ls : List Limb) : Nat := ls.foldl (fun n l => n * 2 ^ 64 + l.toNat) 0

/-- The wide value with these limbs in index order (R12). -/
def ofLimbs (ls : List Limb) : Wide := BitVec.ofNat 512 (natOfLimbs ls)

/-- MemRead(addr, n): the n bytes assembled little-endian (R51). -/
def memRead (m : Memory) (a n : Nat) : Nat := ofBytesLE (m.bytes a n)

/-- MemWrite(addr, n, v): the n low bytes of v, little-endian (R51). -/
def memWrite (m : Memory) (a n v : Nat) : Memory := m.store a (bytesLE n v)

/-- ReadWide(a): limb i is the 8 bytes at a + 8*i (R52, R53). -/
def readWide (m : Memory) (a : Nat) : Wide :=
  ofLimbs ((List.range 8).map fun i => BitVec.ofNat 64 (memRead m (a + 8 * i) 8))

/-- WriteWide(a, v): every limb is written, limb i at a + 8*i (R54). -/
def writeWide (m : Memory) (a : Nat) (v : Wide) : Memory :=
  (List.range 8).foldl (fun m i => memWrite m (a + 8 * i) 8 (limb v i).toNat) m

/-! ### The platform -/

/-- A region admits a kind of access. -/
def Region.allows (r : Region) : AccessKind → Bool
  | .read => r.readable
  | .write => r.writable

/-- MemAdmit(a, n, kind) (R9): one region that allows the kind holds all n bytes. -/
def memAdmit (p : Platform) (a n : Nat) (k : AccessKind) : Bool :=
  p.regions.any fun r => Region.allows r k && (decide (r.base ≤ a) && decide (a + n ≤ r.base + r.size))

/-- The n bytes from a are bytes of the memory, an array of 2^ADDR_WIDTH bytes (R34). -/
def inMemory (p : Platform) (a n : Nat) : Bool := decide (a + n ≤ 2 ^ p.addrWidth)

/-- The n bytes from a overlap the register window [CORE_BASE, CORE_BASE + 63] (R22, R59). -/
def overlapsWindow (p : Platform) (a n : Nat) : Bool :=
  decide (a ≤ p.coreBase + 63) && decide (p.coreBase < a + n)

/-- A buffer at a is admitted for a kind (R59). -/
def admitted (p : Platform) (a : Nat) (k : AccessKind) : Bool :=
  inMemory p a 64 && (!overlapsWindow p a 64 && memAdmit p a 64 k)

/-! ### Registers -/

/-- The eight registers of the window (R22). -/
inductive Reg where
  | cmd
  | arg (j : Fin 4)
  | res
  | status
  | cfg
  deriving DecidableEq, Repr

/-- The register at a byte offset of the window (R22): offsets 0x00, 0x08, ... 0x38 and no other. -/
def regAt (offset : Nat) : Option Reg :=
  match offset with
  | 0x00 => some .cmd
  | 0x08 => some (.arg 0)
  | 0x10 => some (.arg 1)
  | 0x18 => some (.arg 2)
  | 0x20 => some (.arg 3)
  | 0x28 => some .res
  | 0x30 => some .status
  | 0x38 => some .cfg
  | _ => none

/-- ARG j (R25). -/
def State.arg (s : State) (j : Fin 4) : Word :=
  match j with
  | 0 => s.arg0
  | 1 => s.arg1
  | 2 => s.arg2
  | 3 => s.arg3

/-- Writing ARG j (R25). -/
def State.setArg (s : State) (j : Fin 4) (v : Word) : State :=
  match j with
  | 0 => { s with arg0 := v }
  | 1 => { s with arg1 := v }
  | 2 => { s with arg2 := v }
  | 3 => { s with arg3 := v }

/-- The byte address an ARG names as a buffer (R83). -/
def State.addr (s : State) (j : Fin 4) : Nat := (s.arg j).toNat

/-- A register as the host reads it (R24 to R31). -/
def State.readReg (s : State) : Reg → Word
  | .cmd => s.cmd
  | .arg j => s.arg j
  | .res => s.res
  | .status => s.status.word
  | .cfg => cfgWord s.cfgVariant

/-! ### Ending a command -/

/-- Recording an error, the one entry every error goes through (R30, R237): ERR takes the code; ALIGNMENT and BUS_ERROR also
set FATAL and record the ARG index, which is 0 for the other codes (R240). Nothing else changes: no pc is saved, no
mode changes and no vector is taken (R246), and no return from it exists (R247): the next accepted command
overwrites ERR, and only reset clears FATAL (R241). -/
def State.raise (s : State) (code : ErrCode) (argidx : Fin 4) : State :=
  { s with status :=
      { err := code
        fatal := s.status.fatal || code.isFatal
        errArg := if code.isFatal then argidx else 0 } }

/-- The status of a command that completed (R30): ERR and ERRARG 0; FATAL is sticky and stays. -/
def State.succeed (s : State) : State :=
  { s with status := { err := .noError, fatal := s.status.fatal, errArg := 0 } }

/-- One destination byte after a fatal error (R238): if the byte is memory that MemAdmit admits for writing, it holds a
free value; otherwise it is unchanged. Log entry 5. -/
def State.freeByteAt (s : State) (a : Nat) : State :=
  if inMemory s.platform a 1 && memAdmit s.platform a 1 .write then
    { s with mem := s.mem.write a (Config.freeByte s.draws), draws := s.draws + 1 }
  else s

/-- The first `n` bytes from an address, each as `freeByteAt`. -/
def State.freeBytes (s : State) (a n : Nat) : State :=
  match n with
  | 0 => s
  | k + 1 => (State.freeBytes s a k).freeByteAt (a + k)

/-- Every destination buffer of a command, each byte as `freeByteAt` (R238, R239, R262). -/
def State.freeDests (s : State) (m : ArgMap) : State :=
  m.dests.foldl (fun t j => t.freeBytes (t.addr j) 64) s

/-- Ending in ALIGNMENT or BUS_ERROR (R238, R239): the admitted destination bytes are free, then the error is recorded. -/
def State.raiseFatal (s : State) (code : ErrCode) (m : ArgMap) (argidx : Fin 4) : State :=
  (s.freeDests m).raise code argidx

/-- The CORE's reset (R260): every register 0 but CFG.VARIANT, which is fixed at build time. It does not touch memory
(R261), nor what the platform and the host hold. -/
def State.coreReset (s : State) : State :=
  { s with
    cmd := 0, arg0 := 0, arg1 := 0, arg2 := 0, arg3 := 0, res := 0, status := Status.clear
    argOwner := none }

/-! ### Outcomes -/

/-- An outcome of this machine. -/
abbrev Out := Host.Outcome State Fault Refusal

/-- Going on from a next state; a fault or a refusal stays. -/
def thenDo (o : Out) (f : State → Out) : Out :=
  match o with
  | .next t => f t
  | .fault r => .fault r
  | .refused r => .refused r

end Sys2Proof.Machine
end

