-- ==== Sys2Proof/Machine/Operands.lean ====
section
/-! DEFINITION. The operand forms (R83, R85) and Execute (R86): the checks of the buffer ARGs in their order, the snapshot of
the sources, the body, and the writing of the destinations. Every command is an instance of `execute`. -/

namespace Sys2Proof.Machine

/-- zext_512 of a scalar operand (R14, R83). -/
def zextWide (v : Word) : Wide := v.setWidth 512

/-- A buffer ARG breaks the alignment rule: under VECTOR its address is not a multiple of 64 (R56); under SCALAR none
does (R57). -/
def State.misaligned (s : State) (j : Fin 4) : Bool :=
  s.cfgVariant = .vector && s.addr j % 64 != 0

/-- A buffer ARG is not admitted for its kind (R59). -/
def State.unadmitted (s : State) (b : Fin 4 × AccessKind) : Bool :=
  !admitted s.platform (s.addr b.1) b.2

/-- The lowest misaligned buffer ARG, if any (R86, R238). -/
def firstMisaligned (m : ArgMap) (s : State) : Option (Fin 4) :=
  (m.buffers.find? fun b => s.misaligned b.1).map (·.1)

/-- The lowest buffer ARG that is not admitted, if any (R86, R239). -/
def firstUnadmitted (m : ArgMap) (s : State) : Option (Fin 4) :=
  (m.buffers.find? fun b => s.unadmitted b).map (·.1)

/-- What a body is given (R86): for each ARG the value of its source buffer, and its raw scalar. An ARG of another kind
gives 0, so that a body depends on nothing else (R36). -/
structure Snapshot where
  wide : Fin 4 → Wide
  scalar : Fin 4 → Word

/-- The snapshot: every source buffer is read in full before any destination byte is written (R60). -/
def snapshot (m : ArgMap) (s : State) : Snapshot where
  wide j := if m.kind j = .src then readWide s.mem (s.addr j) else 0
  scalar j := if m.kind j = .scalar then s.arg j else 0

/-- What a body returns (R86): the value for the destination at ARG0, the value for the destination at ARG1 (only MUL and
DIV have one), and RES. A command without that destination ignores the value. -/
structure Result where
  dest0 : Wide
  dest1 : Wide
  res : Word
  deriving DecidableEq, Repr

/-- The value for the destination at ARG j. -/
def Result.dest (r : Result) (j : Fin 4) : Wide := if j = 0 then r.dest0 else r.dest1

/-- How a body ends (R86): with its values, or with Error(DIVIDE_BY_ZERO, 0). -/
inductive BodyOutcome where
  | ok (r : Result)
  | divideByZero
  deriving DecidableEq, Repr

/-- A body with one destination, at ARG0. -/
def BodyOutcome.one (d : Wide) (res : Word) : BodyOutcome := .ok { dest0 := d, dest1 := 0, res := res }

/-- A body with two destinations, at ARG0 and ARG1. -/
def BodyOutcome.two (d0 d1 : Wide) : BodyOutcome := .ok { dest0 := d0, dest1 := d1, res := 0 }

/-- A body that only writes RES. -/
def BodyOutcome.resOnly (res : Word) : BodyOutcome := .ok { dest0 := 0, dest1 := 0, res := res }

/-- Writing the destinations, in increasing ARG order (R62, R86). -/
def writeDests (m : ArgMap) (r : Result) (s : State) : State :=
  { s with mem := m.dests.foldl (fun mem j => writeWide mem (s.addr j) (r.dest j)) s.mem }

/-- A command that completes (R30, R86): the destinations are written, then RES, and STATUS records no error. -/
def complete (m : ArgMap) (r : Result) (s : State) : State :=
  { (writeDests m r s).succeed with res := r.res }

/-- Execute (R86), after decoding: ALIGNMENT at the lowest misaligned ARG, else BUS_ERROR at the lowest ARG not admitted,
else the body on the snapshot. It always ends in a next state. -/
def execute (m : ArgMap) (body : Snapshot → BodyOutcome) (s : State) : Out :=
  match firstMisaligned m s with
  | some j => .next (s.raiseFatal .alignment m j)
  | none =>
    match firstUnadmitted m s with
    | some j => .next (s.raiseFatal .busError m j)
    | none =>
      match body (snapshot m s) with
      | .ok r => .next (complete m r s)
      | .divideByZero => .next (s.raise .divideByZero 0)

end Sys2Proof.Machine
end

