-- ==== Sys2Proof/Machine/Additive.lean ====
section
/-! DEFINITION. Additive Engine: ADD, ADDS, SUB, SUBS (41_additive.md), each by its ripple over the limbs from limb 7 to
limb 0 (R120). -/

namespace Sys2Proof.Machine

/-- The carry chain (R120, R121) over pairs of limbs, the least significant pair first: the sum limbs in the same order and
the carry out. -/
def addChain : List (Limb × Limb) → Nat → List Limb × Nat
  | [], c => ([], c)
  | (x, y) :: rest, c =>
    let t := x.toNat + y.toNat + c
    let r := addChain rest (t / 2 ^ 64)
    (BitVec.ofNat 64 t :: r.1, r.2)

/-- The borrow chain (R120, R123) over pairs of limbs, the least significant pair first: the difference limbs and the
borrow out. -/
def subChain : List (Limb × Limb) → Nat → List Limb × Nat
  | [], w => ([], w)
  | (x, y) :: rest, w =>
    let t : Int := (x.toNat : Int) - y.toNat - w
    let r := subChain rest (if t < 0 then 1 else 0)
    (BitVec.ofInt 64 t :: r.1, r.2)

/-- The pairs of limbs of two values, from limb 7 to limb 0. -/
def limbPairs (x y : Wide) : List (Limb × Limb) := ((limbs x).zip (limbs y)).reverse

/-- The limbs of a scalar operand, added or subtracted only at limb 7 (R122, R124). -/
def scalarLimbs (v : Word) : List Limb := List.replicate 7 0 ++ [v]

/-- The pairs of limbs of a value and a scalar, from limb 7 to limb 0 (R122, R124). -/
def scalarPairs (x : Wide) (v : Word) : List (Limb × Limb) := ((limbs x).zip (scalarLimbs v)).reverse

/-- The value and the bit a chain gives, its limbs turned back into index order. -/
def chainResult (r : List Limb × Nat) : Wide × Bool := (ofLimbs r.1.reverse, r.2 != 0)

/-- add(a, b): the sum and the carry out of limb 0 (R121). -/
def addWide (x y : Wide) : Wide × Bool := chainResult (addChain (limbPairs x y) 0)

/-- add_scalar(a, scalar) (R122). -/
def addScalar (x : Wide) (v : Word) : Wide × Bool := chainResult (addChain (scalarPairs x v) 0)

/-- sub(a, b): the difference and the borrow out of limb 0 (R123). -/
def subWide (x y : Wide) : Wide × Bool := chainResult (subChain (limbPairs x y) 0)

/-- sub_scalar(a, scalar) (R124). -/
def subScalar (x : Wide) (v : Word) : Wide × Bool := chainResult (subChain (scalarPairs x v) 0)

/-- ADD's body (R121). -/
def addBody (x : Snapshot) : BodyOutcome :=
  let r := addWide (x.wide 1) (x.wide 2)
  .one r.1 (resOfBit r.2)

/-- ADD: ARG0 = dest, ARG1 = a, ARG2 = b (R121). -/
def execAdd (s : State) : Out := execute (Instr.argMap .add) addBody s

/-- ADDS's body (R122). -/
def addsBody (x : Snapshot) : BodyOutcome :=
  let r := addScalar (x.wide 1) (x.scalar 2)
  .one r.1 (resOfBit r.2)

/-- ADDS: ARG0 = dest, ARG1 = a, ARG2 = scalar (R122). -/
def execAdds (s : State) : Out := execute (Instr.argMap .adds) addsBody s

/-- SUB's body (R123). -/
def subBody (x : Snapshot) : BodyOutcome :=
  let r := subWide (x.wide 1) (x.wide 2)
  .one r.1 (resOfBit r.2)

/-- SUB: ARG0 = dest, ARG1 = a, ARG2 = b (R123). -/
def execSub (s : State) : Out := execute (Instr.argMap .sub) subBody s

/-- SUBS's body (R124). -/
def subsBody (x : Snapshot) : BodyOutcome :=
  let r := subScalar (x.wide 1) (x.scalar 2)
  .one r.1 (resOfBit r.2)

/-- SUBS: ARG0 = dest, ARG1 = a, ARG2 = scalar (R124). -/
def execSubs (s : State) : Out := execute (Instr.argMap .subs) subsBody s

end Sys2Proof.Machine
end

