-- ==== Sys2Proof/Machine/BitScan.lean ====
section
/-! DEFINITION. Bit-Scan Engine: MSB, LSB (44_bitscan.md). Each gives a bit position 0..511, or the sentinel -1 for the zero
value (R180). -/

namespace Sys2Proof.Machine

/-- The highest set bit of a limb among its `n` low bits, or 0 if there is none: max { k | limb[k] = 1 } (R181). -/
def highBit (l : Limb) (n : Nat) : Nat :=
  match n with
  | 0 => 0
  | k + 1 => if l.getLsbD k then k else highBit l k

/-- The lowest set bit of a limb among the bits `64 - n` .. 63, or 0 if there is none: min { k | limb[k] = 1 } (R182). -/
def lowBit (l : Limb) (n : Nat) : Nat :=
  match n with
  | 0 => 0
  | k + 1 => if l.getLsbD (63 - k) then 63 - k else lowBit l k

/-- Scanning limbs from the most significant on (R181): in the first nonzero limb, with `rest.length` limbs below it, the
highest set bit. -/
def scanHigh : List Limb → Int
  | [] => -1
  | l :: rest => if l ≠ 0 then ((64 * rest.length + highBit l 64 : Nat) : Int) else scanHigh rest

/-- Scanning limbs from the least significant on, the first with `i` limbs below it (R182): in the first nonzero limb, the
lowest set bit. -/
def scanLow (i : Nat) : List Limb → Int
  | [] => -1
  | l :: rest => if l ≠ 0 then ((64 * i + lowBit l 64 : Nat) : Int) else scanLow (i + 1) rest

/-- most_significant_bit(src): limb 0 first (R181). -/
def msbWide (x : Wide) : Int := scanHigh (limbs x)

/-- least_significant_bit(src): limb 7 first (R182). -/
def lsbWide (x : Wide) : Int := scanLow 0 (limbs x).reverse

/-- MSB's body (R181). -/
def msbBody (x : Snapshot) : BodyOutcome := .resOnly (resOfInt (msbWide (x.wide 0)))

/-- MSB: ARG0 = src (R181). -/
def execMsb (s : State) : Out := execute (Instr.argMap .msb) msbBody s

/-- LSB's body (R182). -/
def lsbBody (x : Snapshot) : BodyOutcome := .resOnly (resOfInt (lsbWide (x.wide 0)))

/-- LSB: ARG0 = src (R182). -/
def execLsb (s : State) : Out := execute (Instr.argMap .lsb) lsbBody s

end Sys2Proof.Machine
end

