-- ==== Sys2Proof/Machine/Logical.lean ====
section
/-! DEFINITION. Logical Engine: AND, OR, XOR, NOT (42_logical.md), limb by limb with no cross-limb dependency (R140). -/

namespace Sys2Proof.Machine

/-- A bitwise operator applied to the limbs of two values, each limb on its own (R140). -/
def limbwise (f : Limb → Limb → Limb) (x y : Wide) : Wide := ofLimbs (List.zipWith f (limbs x) (limbs y))

/-- AND's body (R141). -/
def andBody (x : Snapshot) : BodyOutcome := .one (limbwise (fun p q => p &&& q) (x.wide 1) (x.wide 2)) 0

/-- AND: ARG0 = dest, ARG1 = a, ARG2 = b (R141). -/
def execAnd (s : State) : Out := execute (Instr.argMap .and) andBody s

/-- OR's body (R142). -/
def orBody (x : Snapshot) : BodyOutcome := .one (limbwise (fun p q => p ||| q) (x.wide 1) (x.wide 2)) 0

/-- OR: ARG0 = dest, ARG1 = a, ARG2 = b (R142). -/
def execOr (s : State) : Out := execute (Instr.argMap .or) orBody s

/-- XOR's body (R143). -/
def xorBody (x : Snapshot) : BodyOutcome := .one (limbwise (fun p q => p ^^^ q) (x.wide 1) (x.wide 2)) 0

/-- XOR: ARG0 = dest, ARG1 = a, ARG2 = b (R82, R143). -/
def execXor (s : State) : Out := execute (Instr.argMap .xor) xorBody s

/-- not_(a): each limb XOR 0xFFFF_FFFF_FFFF_FFFF (R144). -/
def notWide (x : Wide) : Wide := ofLimbs ((limbs x).map fun p => p ^^^ 0xFFFFFFFFFFFFFFFF#64)

/-- NOT's body (R144). -/
def notBody (x : Snapshot) : BodyOutcome := .one (notWide (x.wide 1)) 0

/-- NOT: ARG0 = dest, ARG1 = a (R144). -/
def execNot (s : State) : Out := execute (Instr.argMap .not) notBody s

end Sys2Proof.Machine
end

