-- ==== Sys2Proof/Machine/Multiplicative.lean ====
section
/-! DEFINITION. Multiplicative Engine: MUL, MULLO, DIV (45_multiplicative.md). The product and the quotient are exact integers,
narrowed at the end; the algorithm is not observable (R203). -/

namespace Sys2Proof.Machine

/-- The exact product P, 0 <= P < 2^1024 (R200). -/
def product (x y : Wide) : Nat := x.toNat * y.toNat

/-- P mod 2^512 (R200, R201). -/
def productLow (x y : Wide) : Wide := BitVec.ofNat 512 (product x y % 2 ^ 512)

/-- P div 2^512 (R200). -/
def productHigh (x y : Wide) : Wide := BitVec.ofNat 512 (product x y / 2 ^ 512)

/-- MUL's body (R200): dest_low at ARG0, dest_high at ARG1. -/
def mulBody (x : Snapshot) : BodyOutcome :=
  .two (productLow (x.wide 2) (x.wide 3)) (productHigh (x.wide 2) (x.wide 3))

/-- MUL: ARG0 = dest_low, ARG1 = dest_high, ARG2 = a, ARG3 = b (R200). -/
def execMul (s : State) : Out := execute (Instr.argMap .mul) mulBody s

/-- MULLO's body (R201): the low half, and whether P >= 2^512. -/
def mulloBody (x : Snapshot) : BodyOutcome :=
  .one (productLow (x.wide 1) (x.wide 2)) (resOfBit (decide (2 ^ 512 ≤ product (x.wide 1) (x.wide 2))))

/-- MULLO: ARG0 = dest_low, ARG1 = a, ARG2 = b (R201). -/
def execMullo (s : State) : Out := execute (Instr.argMap .mullo) mulloBody s

/-- n div d for d not 0 (R202). -/
def quotient (n d : Wide) : Wide := BitVec.ofNat 512 (n.toNat / d.toNat)

/-- n mod d for d not 0 (R202). -/
def remainder (n d : Wide) : Wide := BitVec.ofNat 512 (n.toNat % d.toNat)

/-- DIV's body (R202): DIVIDE_BY_ZERO if the divisor's value is 0. -/
def divBody (x : Snapshot) : BodyOutcome :=
  let n := x.wide 2
  let d := x.wide 3
  if d = 0 then .divideByZero else .two (quotient n d) (remainder n d)

/-- DIV: ARG0 = quotient, ARG1 = remainder, ARG2 = dividend, ARG3 = divisor (R202). -/
def execDiv (s : State) : Out := execute (Instr.argMap .div) divBody s

end Sys2Proof.Machine
end

