-- ==== Sys2Proof/Machine/Primitives.lean ====
section
/-! DEFINITION. Representation & Primitives: ZERO, COPY, SETS, CMP, CMPS (40_primitives.md). -/

namespace Sys2Proof.Machine

/-- ZERO's body (R101): all 8 limbs 0. -/
def zeroBody (_ : Snapshot) : BodyOutcome := .one (ofLimbs (List.replicate 8 0)) 0

/-- ZERO: ARG0 = dest (R101). -/
def execZero (s : State) : Out := execute (Instr.argMap .zero) zeroBody s

/-- COPY's body (R102). -/
def copyBody (x : Snapshot) : BodyOutcome := .one (x.wide 1) 0

/-- COPY: ARG0 = dest, ARG1 = src (R102). -/
def execCopy (s : State) : Out := execute (Instr.argMap .copy) copyBody s

/-- SETS's body (R103): limbs 0..6 are 0, limb 7 the value. -/
def setsBody (x : Snapshot) : BodyOutcome := .one (zextWide (x.scalar 1)) 0

/-- SETS: ARG0 = dest, ARG1 = value (R103). -/
def execSets (s : State) : Out := execute (Instr.argMap .sets) setsBody s

/-- The comparison of R104: from limb 0 on, the first unequal limb decides; -1, 0 or 1. -/
def compareLimbs : List Limb → List Limb → Int
  | x :: xs, y :: ys => if x ≠ y then (if x < y then -1 else 1) else compareLimbs xs ys
  | _, _ => 0

/-- compare(lhs, rhs) (R104). -/
def compareWide (x y : Wide) : Int := compareLimbs (limbs x) (limbs y)

/-- CMP's body (R104). -/
def cmpBody (x : Snapshot) : BodyOutcome := .resOnly (resOfInt (compareWide (x.wide 0) (x.wide 1)))

/-- CMP: ARG0 = lhs, ARG1 = rhs (R104). -/
def execCmp (s : State) : Out := execute (Instr.argMap .cmp) cmpBody s

/-- compare_scalar(lhs, value) (R105): a nonzero limb among 0..6 gives 1; else limb 7 is compared with the value. -/
def compareScalar (x : Wide) (v : Word) : Int :=
  if (List.range 7).any fun i => limb x i != 0 then 1
  else if limb x 7 < v then -1
  else if limb x 7 = v then 0
  else 1

/-- CMPS's body (R105). -/
def cmpsBody (x : Snapshot) : BodyOutcome := .resOnly (resOfInt (compareScalar (x.wide 0) (x.scalar 1)))

/-- CMPS: ARG0 = lhs, ARG1 = value (R105). -/
def execCmps (s : State) : Out := execute (Instr.argMap .cmps) cmpsBody s

end Sys2Proof.Machine
end

