-- ==== Sys2Proof/Machine/Shift.lean ====
section
/-! DEFINITION. Shift Engine: SHR, SHL (43_shift.md), defined by the magnitude (R161, R162, 90_conflicts.md C1). -/

namespace Sys2Proof.Machine

/-- shift_right(x, n) = floor(x / 2^n); a count of 512 or more yields 0, and no count is reduced (R160, R161). -/
def shrWide (x : Wide) (n : Word) : Wide := if 512 ≤ n.toNat then 0 else x >>> n.toNat

/-- shift_left(x, n) = (x * 2^n) mod 2^512; a count of 512 or more yields 0, and no count is reduced (R160, R162). -/
def shlWide (x : Wide) (n : Word) : Wide := if 512 ≤ n.toNat then 0 else x <<< n.toNat

/-- SHR's body (R161). -/
def shrBody (x : Snapshot) : BodyOutcome := .one (shrWide (x.wide 1) (x.scalar 2)) 0

/-- SHR: ARG0 = dest, ARG1 = src, ARG2 = bits (R161). -/
def execShr (s : State) : Out := execute (Instr.argMap .shr) shrBody s

/-- SHL's body (R162). -/
def shlBody (x : Snapshot) : BodyOutcome := .one (shlWide (x.wide 1) (x.scalar 2)) 0

/-- SHL: ARG0 = dest, ARG1 = src, ARG2 = bits (R162). -/
def execShl (s : State) : Out := execute (Instr.argMap .shl) shlBody s

end Sys2Proof.Machine
end

