-- ==== Sys2Proof/Machine/Dispatch.lean ====
section
/-! DEFINITION. One arm per command, each a call of its meaning. -/

namespace Sys2Proof.Machine

def exec (i : Instr) (s : State) : Host.Outcome State Fault Refusal :=
  match i with
  | .zero => Sys2Proof.Machine.execZero s
  | .copy => Sys2Proof.Machine.execCopy s
  | .sets => Sys2Proof.Machine.execSets s
  | .cmp => Sys2Proof.Machine.execCmp s
  | .cmps => Sys2Proof.Machine.execCmps s
  | .add => Sys2Proof.Machine.execAdd s
  | .adds => Sys2Proof.Machine.execAdds s
  | .sub => Sys2Proof.Machine.execSub s
  | .subs => Sys2Proof.Machine.execSubs s
  | .and => Sys2Proof.Machine.execAnd s
  | .or => Sys2Proof.Machine.execOr s
  | .xor => Sys2Proof.Machine.execXor s
  | .not => Sys2Proof.Machine.execNot s
  | .shr => Sys2Proof.Machine.execShr s
  | .shl => Sys2Proof.Machine.execShl s
  | .msb => Sys2Proof.Machine.execMsb s
  | .lsb => Sys2Proof.Machine.execLsb s
  | .mul => Sys2Proof.Machine.execMul s
  | .mullo => Sys2Proof.Machine.execMullo s
  | .div => Sys2Proof.Machine.execDiv s

end Sys2Proof.Machine
end

