-- ==== Sys2Proof/Machine/Window.lean ====
section
/-! DEFINITION. What each event of the outside world does (R19): host accesses to the register window (R22, R23) and to the
memory (R34, R67), accepting a command (R24, R30), what happens while it is in progress (R67, R262, R268), reset (R260). -/

namespace Sys2Proof.Machine

/-- Two byte ranges share a byte. -/
def overlaps (a n b k : Nat) : Bool := decide (a < b + k) && decide (b < a + n)

/-- An access of `n` bytes by the host or another agent, where it meets neither the window nor a command's buffers: it must
lie in the memory (R34); an address that does not exist faults. -/
def memoryAccess (s : State) (a n : Nat) (f : State → Out) : Out :=
  if inMemory s.platform a n then f s else .fault .noSuchMemory

/-- What another agent, the platform or the reset input does at its turn. An agent's access to the window is refused: there
is one command port, the host's (R250). -/
def runConcurrent (c : Concurrent) (s : State) : Out :=
  match c with
  | .read a n =>
    if overlapsWindow s.platform a n then .refused .concurrentAccess
    else memoryAccess s a n fun s => .next s
  | .write a data =>
    if overlapsWindow s.platform a data.length then .refused .concurrentAccess
    else memoryAccess s a data.length fun s => .next { s with mem := s.mem.store a data }
  | .remap regions => .next { s with platform := { s.platform with regions := regions } }
  | .reset => .next s.coreReset

/-- Several such things, one after the other. -/
def runAll (cs : List Concurrent) (s : State) : Out :=
  match cs with
  | [] => .next s
  | c :: rest => thenDo (runConcurrent c s) (runAll rest)

/-- The first refusal a command's company asks for (R67, R268, R269): another agent writes a byte of a source or destination
or reads a byte of a destination, or a buffer's admission changes. -/
def conflict (m : ArgMap) (s : State) (c : Concurrent) : Option Refusal :=
  match c with
  | .read a n =>
    if m.dests.any fun j => overlaps a n (s.addr j) 64 then some .concurrentAccess else none
  | .write a data =>
    if m.buffers.any fun b => overlaps a data.length (s.addr b.1) 64 then some .concurrentAccess else none
  | .remap regions =>
    if m.buffers.any fun b =>
        admitted { s.platform with regions := regions } (s.addr b.1) b.2 != admitted s.platform (s.addr b.1) b.2 then
      some .admissionChanged
    else none
  | .reset => none

/-- A command in progress with its company (R67). A conflict is refused. A reset asserted meanwhile abandons the command: its
admitted destination bytes are free (R262). Otherwise the command runs as one step, and what else happened, which
touches none of its buffers, follows it (DEDUCED, safe, log entry 6). -/
def runDuring (i : Instr) (during : List Concurrent) (s : State) : Out :=
  match during.findSome? (conflict i.argMap s) with
  | some r => .refused r
  | none =>
    if during.contains .reset then runAll during (s.freeDests i.argMap)
    else thenDo (exec i s) (runAll during)

/-- A host write of `v` to CMD (R24, R30). While FATAL is 1 it is ignored (R241); else CMD takes it, and the command runs to
completion, an illegal word ending in ILLEGAL_COMMAND (R84, R243). -/
def writeCmd (v : Word) (during : List Concurrent) (s : State) : Out :=
  if s.status.fatal then runAll during s
  else
    match decode v with
    | .ok i => runDuring i during { s with cmd := v }
    | .error _ => runAll during (State.raise { s with cmd := v } .illegalCommand 0)

/-- A host write of `v` to a register (R24, R25, R29) by a thread. RES, STATUS and CFG ignore it. Another thread's write
to ARG or CMD between a thread's ARG writes and its CMD write is refused (R250, R268). -/
def writeRegister (thread : Nat) (r : Reg) (v : Word) (during : List Concurrent) (s : State) : Out :=
  match r with
  | .cmd =>
    if s.argOwner.getD thread = thread then writeCmd v during { s with argOwner := none }
    else .refused .interleavedThreads
  | .arg j =>
    if s.argOwner.getD thread = thread then runAll during { s.setArg j v with argOwner := some thread }
    else .refused .interleavedThreads
  | .res => runAll during s
  | .status => runAll during s
  | .cfg => runAll during s

/-- The register an access of `n` bytes at an address of the window reaches: only a naturally aligned 64-bit access reaches
one (R23). -/
def windowRegister (p : Platform) (a n : Nat) : Option Reg :=
  if n = 8 ∧ p.coreBase ≤ a then regAt (a - p.coreBase) else none

/-- A host access of `n` bytes: to the window it goes to the one register it reaches, and any other form is refused (R23);
elsewhere it goes to the memory, the one the CORE's memory port sees (R68 leaves that coherence to the platform; DEDUCED,
unsafe where a platform has none, log entry 9). -/
def hostAccess (s : State) (a n : Nat) (onRegister : Reg → Out) (onMemory : State → Out) : Out :=
  if overlapsWindow s.platform a n then
    match windowRegister s.platform a n with
    | some r => onRegister r
    | none => .refused .windowAccess
  else memoryAccess s a n onMemory

/-- One event of the outside world. -/
def runEvent (e : Event) (s : State) : Out :=
  match e with
  | .read a n =>
    hostAccess s a n
      (fun r => .next { s with readData := bytesLE 8 (s.readReg r).toNat })
      (fun s => .next { s with readData := s.mem.bytes a n })
  | .write thread a data during =>
    hostAccess s a data.length
      (fun r => writeRegister thread r (BitVec.ofNat 64 (ofBytesLE data)) during s)
      (fun s => runAll during { s with mem := s.mem.store a data })
  | .reset => .next s.coreReset
  | .remap regions => .next { s with platform := { s.platform with regions := regions } }

/-- The next event, if any, taken off the list and run. With none the CORE is idle and nothing changes (R252, R264). -/
def runPending (s : State) : Out :=
  match s.pending with
  | [] => .next s
  | e :: rest => runEvent e { s with pending := rest }

/-- A host thread's write of a command word to CMD: eight bytes at CORE_BASE (R22, R24). -/
def cmdWrite (p : Platform) (thread : Nat) (v : Word) : Event :=
  .write thread p.coreBase (bytesLE 8 v.toNat) []

/-- A host thread's write to ARG j: eight bytes at CORE_BASE + 8 + 8*j (R88). -/
def argWrite (p : Platform) (thread : Nat) (j : Nat) (v : Word) : Event :=
  .write thread (p.coreBase + 8 + 8 * j) (bytesLE 8 v.toNat) []

end Sys2Proof.Machine
end

