-- ==== Sys2Proof/Machine/Step.lean ====
section
/-! DEFINITION. The step: one event of the outside world, in which an accepted CMD write runs its whole command (R264, R265). -/

namespace Sys2Proof.Machine

/-- One step. -/
def step (s : State) : Host.Outcome State Fault Refusal := runPending s

/-- The state in which the next event is the host's write of the command word `w` to CMD, by the thread that owns the
argument registers. The CORE fetches nothing (R21): this write is where a command comes from (log entry 1). -/
def State.withFetchWord (s : State) (nbits w : Nat) : State :=
  { s with pending := cmdWrite s.platform (s.argOwner.getD 0) (BitVec.ofNat 64 (w % 2 ^ nbits)) :: s.pending }

end Sys2Proof.Machine
end

