-- ==== Sys2Proof/WellFormed.lean ====
section
/-! DEFINITION. Well-formedness. A command has no operand field (R83), so every term of `Instr` is well formed; what can
be ill formed is a platform (R9), a command word (R84) and a command line (R87). -/

namespace Sys2Proof

/-- A legal platform (R9): ADDR_WIDTH is 1..64 and CORE_BASE is 64-byte aligned. -/
abbrev Platform.WellFormed (p : Platform) : Prop :=
  1 ≤ p.addrWidth ∧ p.addrWidth ≤ 64 ∧ p.coreBase % 64 = 0

/-- A legal command word (R84): RSVD is 0 and OPC is assigned. -/
abbrev WordWellFormed (w : Word) : Prop :=
  rsvdField w = 0 ∧ (decodeOpc (opcField w)).isSome = true

/-- An operand fits an ARG of this kind (R83, R87): a buffer is written `[addr]`, a scalar `#n`, each a 64-bit value. -/
def LineOperand.fits (k : ArgKind) : LineOperand → Bool
  | .buffer addr => (k = .dest || k = .src) && decide (addr < 2 ^ 64)
  | .scalar n => k = .scalar && decide (n < 2 ^ 64)

/-- The kinds of the ARGs a command uses, in order: R85 fills them from ARG0 upward. -/
def ArgMap.used (m : ArgMap) : List ArgKind :=
  [m.arg0, m.arg1, m.arg2, m.arg3].filter fun k => k != .unused

/-- A legal command line (R87): one operand for each ARG the command uses, of that ARG's kind. -/
def Line.WellFormed (l : Line) : Bool :=
  l.operands.length = l.instr.argMap.used.length &&
    (l.operands.zip l.instr.argMap.used).all fun p => p.1.fits p.2

end Sys2Proof
end

