-- ==== Sys2Proof/Machine/Assembler.lean ====
section
/-! DEFINITION. What a command line stands for (R88) and what a pseudo-instruction expands to (R89). -/

namespace Sys2Proof.Machine

/-- The 64-bit value of an operand: the buffer's address or the scalar (R83, R87). -/
def operandValue : LineOperand → Word
  | .buffer addr => BitVec.ofNat 64 addr
  | .scalar n => BitVec.ofNat 64 n

/-- The ARG writes of a command line from ARG j on (R88). -/
def argWrites (p : Platform) (thread j : Nat) : List LineOperand → List Event
  | [] => []
  | o :: rest => argWrite p thread j (operandValue o) :: argWrites p thread (j + 1) rest

/-- The host sequence a command line stands for (R88): its ARG writes, then the CMD write. -/
def lineEvents (p : Platform) (thread : Nat) (l : Line) : List Event :=
  argWrites p thread 0 l.operands ++ [cmdWrite p thread (encode l.instr)]

/-- The one command line a pseudo-instruction expands to (R89). -/
def expandPseudo : Pseudo → Line
  | .clr d => ⟨.zero, [.buffer d]⟩
  | .mov d s => ⟨.copy, [.buffer d, .buffer s]⟩
  | .ldi d v => ⟨.sets, [.buffer d, .scalar v]⟩
  | .inc d a => ⟨.adds, [.buffer d, .buffer a, .scalar 1]⟩
  | .dec d a => ⟨.subs, [.buffer d, .buffer a, .scalar 1]⟩
  | .tstz a => ⟨.cmps, [.buffer a, .scalar 0]⟩
  | .bitlen a => ⟨.msb, [.buffer a]⟩

end Sys2Proof.Machine
end

