-- ==== Sys2Proof/Machine/Text.lean ====
section
/-! DEFINITION. The textual syntax of command lines (R87): one line of text read into its label, if any, and the command line
it writes. Names stand for buffer addresses. Lines that begin with `host:` are the host's pseudocode and are kept as text;
R87 gives their contents no syntax. What R87 leaves open of blanks, labels and digits is log entry 12 (DESIGN CHOICE, safe). -/

namespace Sys2Proof.Machine

/-- What a line of text holds: a command, host pseudocode, or nothing but a label or a comment. -/
inductive SourceLine where
  | command (l : Line)
  | host (text : List Char)
  | nothing
  deriving DecidableEq, Repr

/-- A line of text with the label it carries. -/
structure LabelledLine where
  label : Option (List Char)
  line : SourceLine
  deriving DecidableEq, Repr

def isBlank (c : Char) : Bool := c = ' ' || c = '\t'

/-- The text without the blanks at its ends. -/
def trimBlanks (cs : List Char) : List Char := ((cs.dropWhile isBlank).reverse.dropWhile isBlank).reverse

/-- The pieces of a text between separators. -/
def splitAtChar (sep : Char) : List Char → List (List Char)
  | [] => [[]]
  | c :: rest =>
    match splitAtChar sep rest with
    | [] => [[c]]
    | w :: ws => if c = sep then [] :: w :: ws else (c :: w) :: ws

/-- The value of a digit in a base. -/
def digitValue (base : Nat) (c : Char) : Option Nat :=
  let v :=
    if '0' ≤ c ∧ c ≤ '9' then c.toNat - '0'.toNat
    else if 'a' ≤ c ∧ c ≤ 'f' then c.toNat - 'a'.toNat + 10
    else if 'A' ≤ c ∧ c ≤ 'F' then c.toNat - 'A'.toNat + 10
    else base
  if v < base then some v else none

/-- The number its digits write, `_` only grouping them (R10). -/
def numberOfDigits (base acc : Nat) : List Char → Option Nat
  | [] => some acc
  | c :: rest =>
    if c = '_' then numberOfDigits base acc rest
    else
      match digitValue base c with
      | some v => numberOfDigits base (acc * base + v) rest
      | none => none

/-- A number: `0x` and hexadecimal digits, or decimal digits, a digit first (R10, R87). -/
def parseNumber (cs : List Char) : Option Nat :=
  match cs with
  | [] => none
  | '0' :: 'x' :: [] => none
  | '0' :: 'x' :: '_' :: _ => none
  | '_' :: _ => none
  | '0' :: 'x' :: ds => numberOfDigits 16 0 ds
  | ds => numberOfDigits 10 0 ds

/-- An operand: `[addr]` or `[name]` for a buffer, `#n` for a scalar (R87). -/
def parseOperand (names : List (List Char × Nat)) (cs : List Char) : Option LineOperand :=
  match cs with
  | '#' :: n => (parseNumber n).map .scalar
  | '[' :: rest =>
    match rest.reverse with
    | ']' :: inner =>
      let a := trimBlanks inner.reverse
      ((names.lookup a).or (parseNumber a)).map .buffer
    | _ => none
  | _ => none

/-- The mnemonics of R81. -/
def commandNames : List (List Char × Instr) :=
  [(['Z', 'E', 'R', 'O'], .zero), (['C', 'O', 'P', 'Y'], .copy), (['S', 'E', 'T', 'S'], .sets), (['C', 'M', 'P'], .cmp),
    (['C', 'M', 'P', 'S'], .cmps), (['A', 'D', 'D'], .add), (['A', 'D', 'D', 'S'], .adds), (['S', 'U', 'B'], .sub),
    (['S', 'U', 'B', 'S'], .subs), (['A', 'N', 'D'], .and), (['O', 'R'], .or), (['X', 'O', 'R'], .xor),
    (['N', 'O', 'T'], .not), (['S', 'H', 'R'], .shr), (['S', 'H', 'L'], .shl), (['M', 'S', 'B'], .msb),
    (['L', 'S', 'B'], .lsb), (['M', 'U', 'L'], .mul), (['M', 'U', 'L', 'L', 'O'], .mullo), (['D', 'I', 'V'], .div)]

/-- A pseudo-instruction by its name and operands (R89). -/
def parsePseudo (name : List Char) (ops : List LineOperand) : Option Pseudo :=
  match ops with
  | [.buffer d] =>
    if name = ['C', 'L', 'R'] then some (.clr d)
    else if name = ['T', 'S', 'T', 'Z'] then some (.tstz d)
    else if name = ['B', 'I', 'T', 'L', 'E', 'N'] then some (.bitlen d)
    else none
  | [.buffer d, .buffer a] =>
    if name = ['M', 'O', 'V'] then some (.mov d a)
    else if name = ['I', 'N', 'C'] then some (.inc d a)
    else if name = ['D', 'E', 'C'] then some (.dec d a)
    else none
  | [.buffer d, .scalar v] => if name = ['L', 'D', 'I'] then some (.ldi d v) else none
  | _ => none

/-- The command line a mnemonic and its operands write, if it is a legal one (R87, R89). -/
def parseCommand (name : List Char) (ops : List LineOperand) : Option Line :=
  let l : Option Line :=
    match commandNames.lookup name with
    | some i => some { instr := i, operands := ops }
    | none => (parsePseudo name ops).map expandPseudo
  l.filter Line.WellFormed

/-- The operands of a line, comma by comma; none is written for a text without any. -/
def parseOperands (names : List (List Char × Nat)) (cs : List Char) : Option (List LineOperand) :=
  if cs = [] then some [] else (splitAtChar ',' cs).mapM fun o => parseOperand names (trimBlanks o)

/-- A line begins with a label if its first word ends in a colon. -/
def splitLabel (cs : List Char) : Option (List Char) × List Char :=
  let w := cs.takeWhile fun c => !isBlank c && (c != ':' && c != ';')
  match cs.drop w.length with
  | ':' :: rest => (some w, trimBlanks rest)
  | _ => (none, cs)

/-- One line of text (R87). A text that is no line of the syntax gives none. -/
def parseLine (names : List (List Char × Nat)) (text : List Char) : Option LabelledLine :=
  let (label, body) := splitLabel (trimBlanks text)
  if label = some ['h', 'o', 's', 't'] then some { label := none, line := .host body }
  else
    let body := trimBlanks (body.takeWhile (· != ';'))
    if body = [] then some { label := label, line := .nothing }
    else
      let name := body.takeWhile fun c => !isBlank c
      match parseOperands names (trimBlanks (body.drop name.length)) with
      | none => none
      | some ops => (parseCommand name ops).map fun l => { label := label, line := .command l }

end Sys2Proof.Machine
end

