-- ==== Sys2Proof/Safety.lean ====
section
/-! DEFINITION. What claims are stated in: when a command's buffers are ready, what completing means, the frame of a command,
the faulted state (R241), and the invariant every step keeps. -/

namespace Sys2Proof.Machine

/-- The faulted state (R241): FATAL is 1. A run that reaches it is never final, and no claim may rest on a command
issued in it. -/
def Faulted (s : State) : Prop := s.status.fatal = true

/-- The buffers a command names meet R56 and R59: under VECTOR each address is a multiple of 64, and each is admitted for its
kind. -/
abbrev BuffersReady (s : State) (bufs : List (Fin 4 × AccessKind)) : Prop :=
  ∀ b ∈ bufs, (s.cfgVariant = .vector → s.addr b.1 % 64 = 0) ∧ admitted s.platform (s.addr b.1) b.2 = true

/-- The value of the 64-byte buffer ARG j names (R52, R53). -/
def State.wide (s : State) (j : Fin 4) : Wide := readWide s.mem (s.addr j)

/-- An address lies in the buffer ARG j names (R52). -/
def InBuffer (s : State) (j : Fin 4) (a : Nat) : Prop := s.addr j ≤ a ∧ a < s.addr j + 64

/-- What no command changes (R25, R31, R235): CMD, the ARGs, CFG, the platform, and what the host holds. -/
structure KeepsRest (s t : State) : Prop where
  cmd : t.cmd = s.cmd
  arg0 : t.arg0 = s.arg0
  arg1 : t.arg1 = s.arg1
  arg2 : t.arg2 = s.arg2
  arg3 : t.arg3 = s.arg3
  cfgVariant : t.cfgVariant = s.cfgVariant
  platform : t.platform = s.platform
  argOwner : t.argOwner = s.argOwner
  readData : t.readData = s.readData
  pending : t.pending = s.pending

/-- Every byte of memory outside the buffers of these ARGs reads as before (R61). -/
def KeepsMemory (s t : State) (dests : List (Fin 4)) : Prop :=
  ∀ a, (∀ j ∈ dests, ¬ InBuffer s j a) → t.mem.read a = s.mem.read a

/-- A command completes with no error (R30): a next state in which STATUS says so and FATAL stays, nothing but RES, STATUS and
the destination buffers has changed, and `post` holds. -/
def Completes (i : Instr) (s : State) (dests : List (Fin 4)) (post : State → Prop) : Prop :=
  ∃ t, exec i s = .next t ∧ t.status = { err := .noError, fatal := s.status.fatal, errArg := 0 } ∧
    KeepsRest s t ∧ t.draws = s.draws ∧ KeepsMemory s t dests ∧ post t

/-- A byte of memory that MemAdmit admits for writing (R238). -/
def ByteAdmitted (p : Platform) (a : Nat) : Prop := inMemory p a 1 = true ∧ memAdmit p a 1 .write = true

/-- The admitted bytes among these addresses hold free values after a step (R238, R262; byte by byte: log entry 5): each is a
draw made in the step, no two of them the same draw, so that nothing ties one to another or to what stood there. -/
def DrawnIn (s t : State) (d : Nat → Prop) : Prop :=
  ∃ n : Nat → Nat,
    (∀ a, d a → ByteAdmitted s.platform a →
      s.draws ≤ n a ∧ n a < t.draws ∧ t.mem.read a = Config.freeByte (n a)) ∧
    ∀ a b, d a → d b → ByteAdmitted s.platform a → ByteAdmitted s.platform b → n a = n b → a = b

/-- An address lies in one of the buffers these ARGs name (R52). -/
def InBuffers (s : State) (dests : List (Fin 4)) (a : Nat) : Prop := ∃ j ∈ dests, InBuffer s j a

/-- A command ends in ALIGNMENT or BUS_ERROR (R238, R239): STATUS holds the code, FATAL and ERRARG; RES and the rest are
unchanged; every admitted byte of the destination buffers holds a free value, and all other memory is unchanged. -/
def EndsFatal (i : Instr) (s : State) (dests : List (Fin 4)) (code : ErrCode) (j : Fin 4) : Prop :=
  ∃ t, exec i s = .next t ∧ t.status = { err := code, fatal := true, errArg := j } ∧ t.res = s.res ∧ KeepsRest s t ∧
    DrawnIn s t (InBuffers s dests) ∧
    ∀ a, (∀ k ∈ dests, InBuffer s k a → ¬ ByteAdmitted s.platform a) → t.mem.read a = s.mem.read a

/-- ARG j is the lowest of these buffers whose address is not a multiple of 64, under VECTOR (R56, R238). -/
def LowestMisaligned (s : State) (bufs : List (Fin 4 × AccessKind)) (j : Fin 4) : Prop :=
  s.cfgVariant = .vector ∧ (∃ k, (j, k) ∈ bufs) ∧ s.addr j % 64 ≠ 0 ∧
    ∀ b ∈ bufs, b.1 < j → s.addr b.1 % 64 = 0

/-- No buffer is misaligned, and ARG j is the lowest of these buffers that is not admitted (R59, R239). -/
def LowestUnadmitted (s : State) (bufs : List (Fin 4 × AccessKind)) (j : Fin 4) : Prop :=
  (∀ b ∈ bufs, s.cfgVariant = .vector → s.addr b.1 % 64 = 0) ∧
    (∃ k, (j, k) ∈ bufs ∧ admitted s.platform (s.addr j) k = false) ∧
    ∀ b ∈ bufs, b.1 < j → admitted s.platform (s.addr b.1) b.2 = true

/-- A host write of a word to CMD comes next, and it is accepted (R24): FATAL is 0, and no other thread is between its ARG
writes and its CMD write (R250). -/
def CmdWriteNext (s : State) (w : Word) (during : List Concurrent) (rest : List Event) : Prop :=
  (∃ thread, s.pending = .write thread s.platform.coreBase (bytesLE 8 w.toNat) during :: rest ∧
    s.argOwner.getD thread = thread) ∧ s.status.fatal = false

/-- The state in which an accepted command starts: the event is taken, CMD holds the word, and the argument sequence of its
thread has ended (R24, R250). -/
def State.accept (s : State) (w : Word) (rest : List Event) : State :=
  { s with pending := rest, argOwner := none, cmd := w }

/-- The event asserts the reset input, at its turn or while a command is in progress (R262). -/
def eventResets : Event → Bool
  | .read _ _ => false
  | .write _ _ _ during => during.contains .reset
  | .reset => true
  | .remap _ => false

/-- `n` steps, stopping at the first fault or refusal. -/
def runSteps (n : Nat) (s : State) : Out :=
  match n with
  | 0 => .next s
  | k + 1 => thenDo (step s) (runSteps k)

/-- The loop of ADD and ADDS (R121, R122) over limbs `x` and `y`: step `k` treats limb `7 - k`, `c k` is the carry into it, the
chain starts with 0, and `out` is the carry out of limb 0. -/
def AddRipple (x y : Nat → Nat) (d : Wide) (out : Nat) : Prop :=
  ∃ c : Nat → Nat, c 0 = 0 ∧ c 8 = out ∧ ∀ k < 8,
    (limb d (7 - k)).toNat = (x (7 - k) + y (7 - k) + c k) % 2 ^ 64 ∧
      c (k + 1) = (x (7 - k) + y (7 - k) + c k) / 2 ^ 64

/-- The loop of SUB and SUBS (R123, R124), with `w k` the borrow into limb `7 - k`. -/
def SubRipple (x y : Nat → Nat) (d : Wide) (out : Nat) : Prop :=
  ∃ w : Nat → Nat, w 0 = 0 ∧ w 8 = out ∧ ∀ k < 8,
    ((limb d (7 - k)).toNat : Int) = ((x (7 - k) : Int) - y (7 - k) - w k) % 2 ^ 64 ∧
      w (k + 1) = if (x (7 - k) : Int) - y (7 - k) - w k < 0 then 1 else 0

/-- The limbs of a value as numbers (R12). -/
def limbNat (v : Wide) (i : Nat) : Nat := (limb v i).toNat

/-- The limbs a scalar operand adds or subtracts: itself at limb 7, 0 elsewhere (R122, R124). -/
def scalarLimbNat (v : Word) (i : Nat) : Nat := if i = 7 then v.toNat else 0

/-- A line of text: a mnemonic, a blank, and operand texts between commas (R87). -/
def lineText (name : List Char) (texts : List (List Char)) : List Char := name ++ ' ' :: List.intercalate [',', ' '] texts

/-- A mnemonic with operands reads as a command line (R87): whatever texts the operands are written in, as long as each text
reads as its operand and holds no separator, and whatever the names, the line's text gives that command line. -/
def ReadsAs (name : List Char) (ops : List LineOperand) (l : Line) : Prop :=
  ∀ (names : List (List Char × Nat)) (texts : List (List Char)),
    List.Forall₂ (fun text o => parseOperand names text = some o ∧ ',' ∉ text ∧ ';' ∉ text) texts ops →
    parseLine names (lineText name texts) = some { label := none, line := .command l }

/-- The ARG writes of a command line, applied from ARG j on (R88). -/
def setArgs (s : State) (j : Nat) : List LineOperand → State
  | [] => s
  | o :: rest => setArgs (s.setArg (Fin.ofNat 4 j) (operandValue o)) (j + 1) rest

/-- STATUS describes the last accepted command (R30, R236, R241): FATAL and ERRARG go with ALIGNMENT and BUS_ERROR, and each
code fits the word in CMD. -/
structure StatusFits (s : State) : Prop where
  fatal : s.status.fatal = s.status.err.isFatal
  errArg : s.status.err.isFatal = false → s.status.errArg = 0
  divideByZero : s.status.err = .divideByZero → decode s.cmd = .ok .div
  illegal : s.status.err = .illegalCommand → ∀ i, decode s.cmd ≠ .ok i
  alignment : s.status.err = .alignment → s.cfgVariant = .vector
  buffer : s.status.err.isFatal = true → ∃ i, decode s.cmd = .ok i ∧ ∃ k, (s.status.errArg, k) ∈ i.argMap.buffers

/-- The invariant every step keeps: memory is in canonical form and lists only bytes of the memory array (R34), the platform
is legal (R9), and STATUS describes the last accepted command. -/
structure Inv (s : State) : Prop where
  wf : s.mem.wf
  inRange : ∀ c ∈ s.mem, c.1 < 2 ^ s.platform.addrWidth
  platform : s.platform.WellFormed
  status : StatusFits s

end Sys2Proof.Machine
end

