-- ==== Sys2Proof/Certificates/Slice0/Obligations.lean ====
section
/-! DEFINITION. The statements for the provers. Each docstring names the rules of spec/ it formalises. Values of 512 bits are
written as numbers where the spec computes with numbers, and by their limbs where the spec goes limb by limb. -/

open Sys2Proof Sys2Proof.Machine

/-! ### Encoding -/

/-- Decoding what was encoded gives the command back, from a word and from a stream of bytes, and no other word decodes to
it (R80, R81, R88). -/
def Obligations.DecodeEncodeAgree : Prop :=
  ∀ i : Instr, (∀ rest, decodeBytes (encodeBytes i ++ rest) = .ok (i, rest)) ∧ ∀ w, decode w = .ok i ↔ w = encode i

/-- Words written out from the opcode map of R81 decode to their commands, one of each engine. -/
def Obligations.SampleWordsDecode : Prop :=
  decode 0x0000000000000003 = .ok .sets ∧ decode 0x0000000000000012 = .ok .sub ∧ decode 0x0000000000000022 = .ok .xor ∧
    decode 0x0000000000000031 = .ok .shl ∧ decode 0x0000000000000041 = .ok .lsb ∧ decode 0x0000000000000052 = .ok .div

/-- A word is illegal exactly if RSVD is nonzero or OPC is not in the map (R84). An accepted CMD write of an illegal word ends
in ILLEGAL_COMMAND: CMD holds the word, ERR is 2, ERRARG 0, FATAL stays 0, and nothing else has changed (R243). -/
def Obligations.IllegalWordEndsInIllegalCommand : Prop :=
  (∀ w : Word, (∀ i, decode w ≠ .ok i) ↔
    (w.extractLsb' 8 56 ≠ 0 ∨ w.extractLsb' 0 8 ∉
      ([0x01, 0x02, 0x03, 0x04, 0x05, 0x10, 0x11, 0x12, 0x13, 0x20, 0x21, 0x22, 0x23, 0x30, 0x31, 0x40, 0x41, 0x50, 0x51,
        0x52] : List (BitVec 8)))) ∧
  ∀ (s : State) (w : Word) (rest : List Event), CmdWriteNext s w [] rest → (∀ i, decode w ≠ .ok i) →
    ∃ t, step s = .next t ∧ t.cmd = w ∧ t.status = { err := .illegalCommand, fatal := false, errArg := 0 } ∧
      t.mem = s.mem ∧ t.res = s.res ∧ KeepsRest (s.accept w rest) t ∧ t.draws = s.draws

/-! ### Memory and buffers -/

/-- Byte order (R51): MemRead is the little-endian sum of its bytes, MemWrite stores byte k of its value at addr + k, and the
host's 64-bit register accesses use the same order. -/
def Obligations.ByteOrderIsLittleEndian : Prop :=
  (∀ (m : Memory) (a n : Nat),
    memRead m a n = ((List.range n).map fun k => (m.read (a + k)).toNat * 2 ^ (8 * k)).sum) ∧
  (∀ (m : Memory) (a n v x : Nat), (memWrite m a n v).read x =
    if a ≤ x ∧ x < a + n then BitVec.ofNat 8 (v / 2 ^ (8 * (x - a))) else m.read x) ∧
  (∀ (s : State) (off : Nat) (r : Reg) (rest : List Event), regAt off = some r →
    s.pending = .read (s.platform.coreBase + off) 8 :: rest →
    ∃ t, step s = .next t ∧
      t.readData = (List.range 8).map fun k => (s.readReg r).extractLsb' (8 * k) 8) ∧
  (∀ (s : State) (thread : Nat) (data : List Byte) (rest : List Event), data.length = 8 →
    s.pending = .write thread s.platform.coreBase data [] :: rest → s.argOwner.getD thread = thread →
    s.status.fatal = false →
    ∃ t, step s = .next t ∧
      t.cmd.toNat = ((List.range 8).map fun k => (data.getD k 0).toNat * 2 ^ (8 * k)).sum) ∧
  ∀ (s : State) (j : Fin 4) (thread : Nat) (data : List Byte) (rest : List Event), data.length = 8 →
    s.pending = .write thread (s.platform.coreBase + 8 + 8 * j.val) data [] :: rest → s.argOwner.getD thread = thread →
    ∃ t, step s = .next t ∧
      (t.arg j).toNat = ((List.range 8).map fun k => (data.getD k 0).toNat * 2 ^ (8 * k)).sum

/-- Buffer layout (R52, R53): byte a + 8*i + k of a buffer holds bits 64*(7-i)+8k+7 : 64*(7-i)+8k of its value. -/
def Obligations.BufferLayout : Prop :=
  ∀ (m : Memory) (a i k : Nat), i < 8 → k < 8 →
    m.read (a + 8 * i + k) = (readWide m a).extractLsb' (64 * (7 - i) + 8 * k) 8

/-- Writing a buffer (R54, R61): it reads back as the value written, and every byte outside its 64 reads as before. -/
def Obligations.BufferWriteReadsBack : Prop :=
  ∀ (m : Memory) (a : Nat) (v : Wide), readWide (writeWide m a v) a = v ∧
    ∀ x, ¬ (a ≤ x ∧ x < a + 64) → (writeWide m a v).read x = m.read x

/-- The canonical form of memory (the model's own, log entry 4): writing a buffer keeps it, and two memories in canonical form
that read the same everywhere are equal. -/
def Obligations.MemoryFormIsCanonical : Prop :=
  (∀ (m : Memory) (a : Nat) (v : Wide), m.wf → (writeWide m a v).wf) ∧
  ∀ m m' : Memory, m.wf → m'.wf → (∀ a, m.read a = m'.read a) → m = m'

/-- Admission (R59): a buffer is admitted for a kind exactly if it neither wraps nor exceeds ADDR_WIDTH, does not overlap the
register window, and MemAdmit holds of it. That MemAdmit is a list of regions is log entry 3. -/
def Obligations.AdmissionRule : Prop :=
  ∀ (p : Platform) (a : Nat) (k : AccessKind), admitted p a k = true ↔
    a + 63 ≤ 2 ^ p.addrWidth - 1 ∧ (∀ x, a ≤ x → x ≤ a + 63 → ¬ (p.coreBase ≤ x ∧ x ≤ p.coreBase + 63)) ∧
      memAdmit p a 64 k = true

/-! ### The step and the register window -/

/-- A step runs the decoded command (R24, R86, R265): when the next event is an accepted CMD write of a word that decodes to
`i`, the step is `exec i` in the state that has taken the event and holds the word in CMD; and the state
`withFetchWord` makes is such a state. Company that neither conflicts nor resets runs after the command (log entry 6). -/
def Obligations.StepRunsDecodedCommand : Prop :=
  (∀ (s : State) (w : Word) (rest : List Event) (i : Instr), CmdWriteNext s w [] rest → decode w = .ok i →
    step s = exec i (s.accept w rest)) ∧
  (∀ (s : State) (w : Word) (i : Instr), s.status.fatal = false → decode w = .ok i →
    step (s.withFetchWord 64 w.toNat) = exec i (s.accept w s.pending)) ∧
  ∀ (s : State) (w : Word) (during : List Concurrent) (rest : List Event) (i : Instr), CmdWriteNext s w during rest →
    decode w = .ok i → (∀ c ∈ during, conflict i.argMap (s.accept w rest) c = none) → Concurrent.reset ∉ during →
    step s = thenDo (exec i (s.accept w rest)) (runAll during)

/-- The fatal state (R241): a CMD write is ignored and changes no register and no memory; ARG writes still take effect and
registers still read; no event but a reset clears FATAL, or changes STATUS, CMD or RES; a reset clears it. That the ignored
write ends its thread's argument sequence (`argOwner`) is the model's choice, log entry 7. -/
def Obligations.FatalStateIgnoresCommands : Prop :=
  ∀ (s : State) (e : Event) (rest : List Event), Faulted s → s.pending = e :: rest →
    (∀ thread w, e = cmdWrite s.platform thread w → s.argOwner.getD thread = thread →
      step s = .next { s with pending := rest, argOwner := none }) ∧
    (∀ thread (j : Fin 4) v, e = argWrite s.platform thread j.val v → s.argOwner.getD thread = thread →
      ∃ t, step s = .next t ∧ t.arg j = v) ∧
    (∀ off r, regAt off = some r → e = .read (s.platform.coreBase + off) 8 →
      step s = .next { s with pending := rest, readData := bytesLE 8 (s.readReg r).toNat }) ∧
    (eventResets e = false → ∀ t, step s = .next t → t.status = s.status ∧ t.cmd = s.cmd ∧ t.res = s.res) ∧
    (e = .reset → ∃ t, step s = .next t ∧ t.status.fatal = false)

/-- The ARG registers (R25): a host write takes effect and changes no other register and no memory; a read returns the value
held; no command changes an ARG. -/
def Obligations.ArgRegistersHoldHostValues : Prop :=
  (∀ (s : State) (rest : List Event) (thread : Nat) (j : Fin 4) (v : Word),
    s.pending = argWrite s.platform thread j.val v :: rest → s.argOwner.getD thread = thread →
    ∃ t, step s = .next t ∧ (∀ k, t.arg k = if k = j then v else s.arg k) ∧ t.cmd = s.cmd ∧ t.res = s.res ∧
      t.status = s.status ∧ t.cfgVariant = s.cfgVariant ∧ t.mem = s.mem ∧ t.platform = s.platform ∧ t.draws = s.draws ∧
      t.pending = rest) ∧
  (∀ (s : State) (rest : List Event) (j : Fin 4), s.pending = .read (s.platform.coreBase + 8 + 8 * j.val) 8 :: rest →
    ∃ t, step s = .next t ∧ t.readData = bytesLE 8 (s.arg j).toNat) ∧
  ∀ (i : Instr) (s t : State), exec i s = .next t → ∀ j, t.arg j = s.arg j

/-- RES, STATUS and CFG ignore host writes, which have no side effect, and the reserved bits of STATUS and CFG read 0
(R29). -/
def Obligations.ReadOnlyRegistersIgnoreWrites : Prop :=
  (∀ (s : State) (rest : List Event) (thread off : Nat) (v : Word), off = 0x28 ∨ off = 0x30 ∨ off = 0x38 →
    s.pending = .write thread (s.platform.coreBase + off) (bytesLE 8 v.toNat) [] :: rest →
    step s = .next { s with pending := rest }) ∧
  ∀ s : State, (s.readReg .status).extractLsb' 5 3 = 0 ∧ (s.readReg .status).extractLsb' 10 54 = 0 ∧
    (s.readReg .cfg).extractLsb' 1 63 = 0

/-- The fields of STATUS and CFG as they read (R28, R31, R236): ERR in bits 3:0 with its code 0..4, FATAL in bit 4, ERRARG in
bits 9:8; VARIANT in bit 0. -/
def Obligations.StatusAndCfgLayout : Prop :=
  (∀ st : Status, st.word.extractLsb' 0 4 =
      (match st.err with
        | .noError => 0
        | .divideByZero => 1
        | .illegalCommand => 2
        | .alignment => 3
        | .busError => 4) ∧
    st.word.getLsbD 4 = st.fatal ∧ st.word.extractLsb' 8 2 = BitVec.ofNat 2 st.errArg.val) ∧
  cfgWord .scalar = 0 ∧ cfgWord .vector = 1

/-- Reading the window (R22, R24, R26): an aligned 64-bit host read at an offset returns the register there, little-endian,
and changes nothing. -/
def Obligations.WindowReadsRegisters : Prop :=
  ∀ (s : State) (rest : List Event) (off : Nat) (v : Word),
    s.pending = .read (s.platform.coreBase + off) 8 :: rest →
    (off, v) ∈ [(0x00, s.cmd), (0x08, s.arg0), (0x10, s.arg1), (0x18, s.arg2), (0x20, s.arg3), (0x28, s.res),
      (0x30, s.status.word), (0x38, cfgWord s.cfgVariant)] →
    step s = .next { s with pending := rest, readData := bytesLE 8 v.toNat }

/-- A host access that meets the window and is not a naturally aligned 64-bit one is refused (R23). -/
def Obligations.OddWindowAccessIsRefused : Prop :=
  ∀ (s : State) (rest : List Event) (a n : Nat), s.platform.coreBase % 64 = 0 →
    a ≤ s.platform.coreBase + 63 → s.platform.coreBase < a + n → ¬ (n = 8 ∧ a % 8 = 0) →
    (s.pending = .read a n :: rest → step s = .refused .windowAccess) ∧
    ∀ thread data during, data.length = n → s.pending = .write thread a data during :: rest →
      step s = .refused .windowAccess

/-- Between commands the CORE takes no step (R252, R264): with no event pending nothing changes. That the model answers the
same state, and does not stop, is log entry 1. -/
def Obligations.IdleChangesNothing : Prop :=
  ∀ s : State, s.pending = [] → step s = .next s

/-- Reset (R35): every register is 0 but CFG.VARIANT, which stays, and memory is left as it was. -/
def Obligations.ResetClearsRegisters : Prop :=
  ∀ (s : State) (rest : List Event), s.pending = .reset :: rest →
    ∃ t, step s = .next t ∧ t.cmd = 0 ∧ t.arg0 = 0 ∧ t.arg1 = 0 ∧ t.arg2 = 0 ∧ t.arg3 = 0 ∧ t.res = 0 ∧
      t.status = { err := .noError, fatal := false, errArg := 0 } ∧ t.cfgVariant = s.cfgVariant ∧ t.mem = s.mem ∧
      t.platform = s.platform ∧ t.pending = rest

/-- The state after reset meets the invariant on every legal platform, and on the one `State.reset` stands on (log
entry 2). -/
def Obligations.InvariantHoldsAtReset : Prop :=
  (∀ (v : Variant) (p : Platform), p.WellFormed → Inv (State.resetOn v p)) ∧ Inv State.reset

/-- Every step keeps the invariant: memory stays in canonical form inside the memory array, the platform stays legal, and
STATUS always describes the last accepted command (R9, R30, R34, R236, R241). -/
def Obligations.EveryStepKeepsInvariant : Prop :=
  ∀ s t : State, Inv s → step s = .next t → Inv t

/-- A reset asserted while a command is in progress (R262): every register takes its reset value, every admitted byte of the
command's destinations holds a free value (byte by byte: log entry 5), and all other memory is unchanged. -/
def Obligations.ResetDuringCommandAbandonsIt : Prop :=
  ∀ (s : State) (w : Word) (rest : List Event) (i : Instr), CmdWriteNext s w [.reset] rest → decode w = .ok i →
    ∃ t, step s = .next t ∧ t.cmd = 0 ∧ t.arg0 = 0 ∧ t.arg1 = 0 ∧ t.arg2 = 0 ∧ t.arg3 = 0 ∧ t.res = 0 ∧
      t.status = { err := .noError, fatal := false, errArg := 0 } ∧ t.cfgVariant = s.cfgVariant ∧
      t.platform = s.platform ∧ t.pending = rest ∧ DrawnIn s t (InBuffers s i.argMap.dests) ∧
      ∀ a, (∀ j ∈ i.argMap.dests, InBuffer s j a → ¬ ByteAdmitted s.platform a) → t.mem.read a = s.mem.read a

/-- What happens beside a command in progress (R67, R268, R269): another agent's write to one of its buffers, its read of a
destination, and a change of a buffer's admission are refused; its read of other memory changes nothing (the form in which
these are given: log entry 6). -/
def Obligations.ConflictsDuringCommandAreRefused : Prop :=
  ∀ (s : State) (w : Word) (rest : List Event) (i : Instr) (c : Concurrent), CmdWriteNext s w [c] rest →
    decode w = .ok i →
    (∀ a data j k x, c = .write a data → (j, k) ∈ i.argMap.buffers → a ≤ x → x < a + data.length → InBuffer s j x →
      step s = .refused .concurrentAccess) ∧
    (∀ a n j x, c = .read a n → j ∈ i.argMap.dests → a ≤ x → x < a + n → InBuffer s j x →
      step s = .refused .concurrentAccess) ∧
    (∀ regions j k, c = .remap regions → (j, k) ∈ i.argMap.buffers →
      admitted { s.platform with regions := regions } (s.addr j) k ≠ admitted s.platform (s.addr j) k →
      step s = .refused .admissionChanged) ∧
    (∀ a n, c = .read a n → 0 < n → a + n ≤ 2 ^ s.platform.addrWidth → overlapsWindow s.platform a n = false →
      (∀ j ∈ i.argMap.dests, ∀ x, a ≤ x → x < a + n → ¬ InBuffer s j x) → step s = exec i (s.accept w rest))

/-- A second host thread's write to ARG or CMD between a thread's ARG writes and its CMD write is refused (R250, R268; when a
thread's sequence begins and ends: log entry 7). -/
def Obligations.InterleavedThreadsAreRefused : Prop :=
  ∀ (s : State) (rest : List Event) (owner thread : Nat) (v : Word), s.argOwner = some owner → thread ≠ owner →
    (s.pending = cmdWrite s.platform thread v :: rest → step s = .refused .interleavedThreads) ∧
    ∀ j : Fin 4, s.pending = argWrite s.platform thread j.val v :: rest → step s = .refused .interleavedThreads

/-- The memory is the host's (R34, R67): bytes the host stores outside the window are what its next read of them returns, and
no register changes. That both see one memory is log entry 9. -/
def Obligations.HostStoreIsVisible : Prop :=
  ∀ (s : State) (rest : List Event) (thread a : Nat) (data : List Byte),
    a + data.length ≤ 2 ^ s.platform.addrWidth → overlapsWindow s.platform a data.length = false →
    s.pending = .write thread a data [] :: .read a data.length :: rest →
    ∃ t u, step s = .next t ∧ step t = .next u ∧ u.readData = data ∧ u.pending = rest ∧ u.cmd = s.cmd ∧
      (∀ j, u.arg j = s.arg j) ∧ u.res = s.res ∧ u.status = s.status ∧ u.cfgVariant = s.cfgVariant ∧
      ∀ x, ¬ (a ≤ x ∧ x < a + data.length) → u.mem.read x = s.mem.read x

/-- A host access outside the window and outside the memory of 2^ADDR_WIDTH bytes faults (R34; the model's choice, log
entry 8). -/
def Obligations.HostAccessOutsideMemoryFaults : Prop :=
  ∀ (s : State) (rest : List Event) (a n : Nat), overlapsWindow s.platform a n = false →
    2 ^ s.platform.addrWidth < a + n →
    (s.pending = .read a n :: rest → step s = .fault .noSuchMemory) ∧
    ∀ thread data during, data.length = n → s.pending = .write thread a data during :: rest →
      step s = .fault .noSuchMemory

/-- Command lines (R88): the events of a legal line, run one a step, write its ARGs and then run its command. -/
def Obligations.LineRunsItsCommand : Prop :=
  ∀ (s : State) (l : Line) (thread : Nat) (rest : List Event), l.WellFormed = true → s.status.fatal = false →
    s.argOwner.getD thread = thread → s.pending = lineEvents s.platform thread l ++ rest →
    runSteps (l.operands.length + 1) s =
      exec l.instr ((setArgs s 0 l.operands).accept (encode l.instr) rest)

/-- Pseudo-instructions (R89): each expands to one legal command line with the operands and the scalar R89 gives. -/
def Obligations.PseudoInstructionsExpand : Prop :=
  ∀ d a v : Nat, d < 2 ^ 64 → a < 2 ^ 64 → v < 2 ^ 64 →
    (∀ p ∈ [Pseudo.clr d, .mov d a, .ldi d v, .inc d a, .dec d a, .tstz a, .bitlen a],
      (expandPseudo p).WellFormed = true) ∧
    expandPseudo (.clr d) = ⟨.zero, [.buffer d]⟩ ∧ expandPseudo (.mov d a) = ⟨.copy, [.buffer d, .buffer a]⟩ ∧
    expandPseudo (.ldi d v) = ⟨.sets, [.buffer d, .scalar v]⟩ ∧
    expandPseudo (.inc d a) = ⟨.adds, [.buffer d, .buffer a, .scalar 1]⟩ ∧
    expandPseudo (.dec d a) = ⟨.subs, [.buffer d, .buffer a, .scalar 1]⟩ ∧
    expandPseudo (.tstz a) = ⟨.cmps, [.buffer a, .scalar 0]⟩ ∧ expandPseudo (.bitlen a) = ⟨.msb, [.buffer a]⟩

/-- Assembler text (R87, R89; what R87 leaves open: log entry 12). Every command a line of text gives is a legal command line.
Each mnemonic of R81, with operands that fit it, reads as that command with those operands in ARG order, and each
pseudo-instruction of R89 as the line it expands to. `[name]` is the buffer a name stands for, and `#n` and `[n]` are the
scalar and the buffer with the value of their digits, decimal or after `0x` lower-case hexadecimal. -/
def Obligations.AssembledLinesAreLegal : Prop :=
  (∀ (names : List (List Char × Nat)) (text : List Char) (label : Option (List Char)) (l : Line),
    parseLine names text = some { label := label, line := .command l } → l.WellFormed = true) ∧
  (∀ row ∈ ([(['Z', 'E', 'R', 'O'], .zero), (['C', 'O', 'P', 'Y'], .copy), (['S', 'E', 'T', 'S'], .sets),
      (['C', 'M', 'P'], .cmp), (['C', 'M', 'P', 'S'], .cmps), (['A', 'D', 'D'], .add), (['A', 'D', 'D', 'S'], .adds),
      (['S', 'U', 'B'], .sub), (['S', 'U', 'B', 'S'], .subs), (['A', 'N', 'D'], .and), (['O', 'R'], .or),
      (['X', 'O', 'R'], .xor), (['N', 'O', 'T'], .not), (['S', 'H', 'R'], .shr), (['S', 'H', 'L'], .shl),
      (['M', 'S', 'B'], .msb), (['L', 'S', 'B'], .lsb), (['M', 'U', 'L'], .mul), (['M', 'U', 'L', 'L', 'O'], .mullo),
      (['D', 'I', 'V'], .div)] : List (List Char × Instr)),
    ∀ ops, Line.WellFormed ⟨row.2, ops⟩ = true → ReadsAs row.1 ops ⟨row.2, ops⟩) ∧
  (∀ d a v : Nat, d < 2 ^ 64 → a < 2 ^ 64 → v < 2 ^ 64 →
    ReadsAs ['C', 'L', 'R'] [.buffer d] ⟨.zero, [.buffer d]⟩ ∧
    ReadsAs ['M', 'O', 'V'] [.buffer d, .buffer a] ⟨.copy, [.buffer d, .buffer a]⟩ ∧
    ReadsAs ['L', 'D', 'I'] [.buffer d, .scalar v] ⟨.sets, [.buffer d, .scalar v]⟩ ∧
    ReadsAs ['I', 'N', 'C'] [.buffer d, .buffer a] ⟨.adds, [.buffer d, .buffer a, .scalar 1]⟩ ∧
    ReadsAs ['D', 'E', 'C'] [.buffer d, .buffer a] ⟨.subs, [.buffer d, .buffer a, .scalar 1]⟩ ∧
    ReadsAs ['T', 'S', 'T', 'Z'] [.buffer a] ⟨.cmps, [.buffer a, .scalar 0]⟩ ∧
    ReadsAs ['B', 'I', 'T', 'L', 'E', 'N'] [.buffer a] ⟨.msb, [.buffer a]⟩) ∧
  (∀ (names : List (List Char × Nat)) (name : List Char) (addr : Nat), names.lookup name = some addr →
    trimBlanks name = name → parseOperand names ('[' :: (name ++ [']'])) = some (.buffer addr)) ∧
  (∀ (names : List (List Char × Nat)) (ds : List (Fin 10)), ds ≠ [] →
    parseOperand names ('#' :: ds.map fun d => Nat.digitChar d.val) =
      some (.scalar (ds.foldl (fun n d => n * 10 + d.val) 0)) ∧
    (names.lookup (ds.map fun d => Nat.digitChar d.val) = none →
      parseOperand names ('[' :: ((ds.map fun d => Nat.digitChar d.val) ++ [']'])) =
        some (.buffer (ds.foldl (fun n d => n * 10 + d.val) 0)))) ∧
  ∀ (names : List (List Char × Nat)) (ds : List (Fin 16)), ds ≠ [] →
    parseOperand names ('#' :: '0' :: 'x' :: ds.map fun d => Nat.digitChar d.val) =
      some (.scalar (ds.foldl (fun n d => n * 16 + d.val) 0)) ∧
    (names.lookup ('0' :: 'x' :: ds.map fun d => Nat.digitChar d.val) = none →
      parseOperand names ('[' :: '0' :: 'x' :: ((ds.map fun d => Nat.digitChar d.val) ++ [']'])) =
        some (.buffer (ds.foldl (fun n d => n * 16 + d.val) 0)))

/-! ### Errors -/

/-- ALIGNMENT (R238): under VECTOR, a command with a misaligned buffer ends in it at the lowest such ARG, whatever else is
wrong; STATUS, RES and memory are as R238 says, every admitted byte of a destination holding a free value (which bytes these
are, byte by byte: log entry 5). Under SCALAR no command ends in it. -/
def Obligations.MisalignedBufferEndsInAlignment : Prop :=
  (∀ (i : Instr) (s : State) (j : Fin 4), LowestMisaligned s i.argMap.buffers j →
    EndsFatal i s i.argMap.dests .alignment j) ∧
  ∀ (i : Instr) (s t : State), s.cfgVariant = .scalar → exec i s = .next t → t.status.err ≠ .alignment

/-- BUS_ERROR (R239): a command none of whose buffers is misaligned, with a buffer not admitted, ends in it at the lowest such
ARG; the effects are those of R238, the admitted destination bytes among them (byte by byte: log entry 5). -/
def Obligations.UnadmittedBufferEndsInBusError : Prop :=
  ∀ (i : Instr) (s : State) (j : Fin 4), LowestUnadmitted s i.argMap.buffers j →
    EndsFatal i s i.argMap.dests .busError j

/-- DIVIDE_BY_ZERO (R242): DIV with a divisor of value 0 writes no memory and no RES; ERR is 1, ERRARG 0, and FATAL is not
set. -/
def Obligations.ZeroDivisorEndsInDivideByZero : Prop :=
  ∀ s : State, BuffersReady s [(0, .write), (1, .write), (2, .read), (3, .read)] → s.wide 3 = 0 →
    ∃ t, exec .div s = .next t ∧ t.status = { err := .divideByZero, fatal := s.status.fatal, errArg := 0 } ∧
      t.mem = s.mem ∧ t.res = s.res ∧ KeepsRest s t ∧ t.draws = s.draws

/-- Priority (R244): an accepted CMD write reports exactly one error, the first that applies of ILLEGAL_COMMAND, ALIGNMENT at
the lowest ARG, BUS_ERROR at the lowest ARG and DIVIDE_BY_ZERO. -/
def Obligations.ErrorPriority : Prop :=
  ∀ (s : State) (w : Word) (rest : List Event), CmdWriteNext s w [] rest →
    ∃ t, step s = .next t ∧
      ((∀ i, decode w ≠ .ok i) → t.status.err = .illegalCommand) ∧
      ∀ i, decode w = .ok i →
        (∀ j, LowestMisaligned s i.argMap.buffers j → t.status.err = .alignment ∧ t.status.errArg = j) ∧
        (∀ j, LowestUnadmitted s i.argMap.buffers j → t.status.err = .busError ∧ t.status.errArg = j) ∧
        (BuffersReady s i.argMap.buffers →
          t.status.err = if i = .div ∧ s.wide 3 = 0 then .divideByZero else .noError)

/-- Confinement (R235): in every state every command ends in a next state, having changed only bytes of its destination
buffers, RES and STATUS (and the model's draw counter); a command that ends in an error has not written RES (R237). That every
command ends is R230 and R271's premise (log entry 10), and that `exec` answers in a faulted state too, where no step runs
it, is log entry 11. -/
def Obligations.CommandsAreConfined : Prop :=
  ∀ (i : Instr) (s : State), ∃ t, exec i s = .next t ∧ KeepsRest s t ∧ KeepsMemory s t i.argMap.dests ∧
    (t.status.err ≠ .noError → t.res = s.res)

/-- Results do not depend on VARIANT (R57, R272): a command whose buffers are aligned has the same outcome under both. -/
def Obligations.VariantIsNotObservable : Prop :=
  ∀ (i : Instr) (s t : State), (∀ b ∈ i.argMap.buffers, s.addr b.1 % 64 = 0) →
    exec i { s with cfgVariant := .scalar } = .next t →
    exec i { s with cfgVariant := .vector } = .next { t with cfgVariant := .vector }

/-- A command's outcome depends only on its inputs (R36): two states with the same VARIANT and platform, the same ARGs where
the command uses them and the same bytes in its source buffers give the same ERR and ERRARG, with the same FATAL before also
the same FATAL after, so all of STATUS, and without an error the same RES and the same destination bytes. -/
def Obligations.OutcomeDependsOnlyOnInputs : Prop :=
  ∀ (i : Instr) (s s' t t' : State), s.cfgVariant = s'.cfgVariant → s.platform = s'.platform →
    (∀ j, i.argMap.kind j ≠ .unused → s.arg j = s'.arg j) →
    (∀ j, i.argMap.kind j = .src → ∀ a, InBuffer s j a → s.mem.read a = s'.mem.read a) →
    exec i s = .next t → exec i s' = .next t' →
    t.status.err = t'.status.err ∧ t.status.errArg = t'.status.errArg ∧
      (s.status.fatal = s'.status.fatal → t.status = t'.status) ∧
      (t.status.err = .noError → t.res = t'.res ∧
        ∀ j ∈ i.argMap.dests, ∀ a, InBuffer s j a → t.mem.read a = t'.mem.read a)

/-! ### Representation & Primitives -/

/-- ZERO (R101). -/
def Obligations.ZeroClearsBuffer : Prop :=
  encode .zero = 0x01 ∧ ∀ s : State, BuffersReady s [(0, .write)] →
    Completes .zero s [0] fun t => (∀ i < 8, limb (t.wide 0) i = 0) ∧ t.res = 0

/-- COPY (R102): dest ends with the value src held before, however the buffers overlap. -/
def Obligations.CopyCopiesBuffer : Prop :=
  encode .copy = 0x02 ∧ ∀ s : State, BuffersReady s [(0, .write), (1, .read)] →
    Completes .copy s [0] fun t => t.wide 0 = s.wide 1 ∧ t.res = 0

/-- SETS (R103): limbs 0..6 are 0 and limb 7 is ARG1, which is not checked. -/
def Obligations.SetsLoadsScalar : Prop :=
  encode .sets = 0x03 ∧ ∀ s : State, BuffersReady s [(0, .write)] →
    Completes .sets s [0] fun t => (∀ i < 7, limb (t.wide 0) i = 0) ∧ limb (t.wide 0) 7 = s.arg1 ∧ t.res = 0

/-- CMP (R104): the first unequal limb, from limb 0 on, decides; all limbs equal give 0. -/
def Obligations.CmpComparesLimbs : Prop :=
  encode .cmp = 0x04 ∧ ∀ s : State, BuffersReady s [(0, .read), (1, .read)] →
    Completes .cmp s [] fun t =>
      (∀ k < 8, (∀ i < k, limb (s.wide 0) i = limb (s.wide 1) i) → limb (s.wide 0) k ≠ limb (s.wide 1) k →
        t.res = if limb (s.wide 0) k < limb (s.wide 1) k then 0xFFFFFFFFFFFFFFFF#64 else 1) ∧
      ((∀ i < 8, limb (s.wide 0) i = limb (s.wide 1) i) → t.res = 0)

/-- CMPS (R105): a nonzero limb among 0..6 gives 1; otherwise limb 7 is compared with ARG1, unsigned. -/
def Obligations.CmpsComparesScalar : Prop :=
  encode .cmps = 0x05 ∧ ∀ s : State, BuffersReady s [(0, .read)] →
    Completes .cmps s [] fun t =>
      ((∃ i < 7, limb (s.wide 0) i ≠ 0) → t.res = 1) ∧
      ((∀ i < 7, limb (s.wide 0) i = 0) → t.res =
        if limb (s.wide 0) 7 < s.arg1 then 0xFFFFFFFFFFFFFFFF#64 else if limb (s.wide 0) 7 = s.arg1 then 0 else 1)

/-- The comparison as one of magnitudes, and the laws of R106. -/
def Obligations.ComparisonLaws : Prop :=
  ∀ (x y : Wide) (v : Word),
    compareWide x y = (if x.toNat < y.toNat then -1 else if x.toNat = y.toNat then 0 else 1) ∧
    compareWide x y = -compareWide y x ∧ compareWide x x = 0 ∧ compareScalar x v = compareWide x (zextWide v)

/-! ### Additive Engine -/

/-- ADD (R121): the ripple from limb 7 to limb 0, RES the carry out of limb 0; and in closed form, dest is (a + b) mod 2^512
and the carry is 1 exactly if the sum is 2^512 or more. -/
def Obligations.AddAddsWithCarry : Prop :=
  encode .add = 0x10 ∧ ∀ s : State, BuffersReady s [(0, .write), (1, .read), (2, .read)] →
    Completes .add s [0] fun t =>
      AddRipple (limbNat (s.wide 1)) (limbNat (s.wide 2)) (t.wide 0) t.res.toNat ∧
      (t.wide 0).toNat = ((s.wide 1).toNat + (s.wide 2).toNat) % 2 ^ 512 ∧
      t.res = if 2 ^ 512 ≤ (s.wide 1).toNat + (s.wide 2).toNat then 1 else 0

/-- ADDS (R122): the ripple with the scalar at limb 7, RES the carry; and in closed form. ARG2 is not checked. -/
def Obligations.AddsAddsScalarWithCarry : Prop :=
  encode .adds = 0x11 ∧ ∀ s : State, BuffersReady s [(0, .write), (1, .read)] →
    Completes .adds s [0] fun t =>
      AddRipple (limbNat (s.wide 1)) (scalarLimbNat s.arg2) (t.wide 0) t.res.toNat ∧
      (t.wide 0).toNat = ((s.wide 1).toNat + s.arg2.toNat) % 2 ^ 512 ∧
      t.res = if 2 ^ 512 ≤ (s.wide 1).toNat + s.arg2.toNat then 1 else 0

/-- SUB (R123): the ripple from limb 7 to limb 0, RES the borrow out of limb 0; and in closed form, dest is (a - b) mod 2^512
and the borrow is 1 exactly if a < b. -/
def Obligations.SubSubtractsWithBorrow : Prop :=
  encode .sub = 0x12 ∧ ∀ s : State, BuffersReady s [(0, .write), (1, .read), (2, .read)] →
    Completes .sub s [0] fun t =>
      SubRipple (limbNat (s.wide 1)) (limbNat (s.wide 2)) (t.wide 0) t.res.toNat ∧
      ((t.wide 0).toNat : Int) = ((s.wide 1).toNat - (s.wide 2).toNat : Int) % 2 ^ 512 ∧
      t.res = if (s.wide 1).toNat < (s.wide 2).toNat then 1 else 0

/-- SUBS (R124): the ripple with the scalar at limb 7, RES the borrow; and in closed form. ARG2 is not checked. -/
def Obligations.SubsSubtractsScalarWithBorrow : Prop :=
  encode .subs = 0x13 ∧ ∀ s : State, BuffersReady s [(0, .write), (1, .read)] →
    Completes .subs s [0] fun t =>
      SubRipple (limbNat (s.wide 1)) (scalarLimbNat s.arg2) (t.wide 0) t.res.toNat ∧
      ((t.wide 0).toNat : Int) = ((s.wide 1).toNat - s.arg2.toNat : Int) % 2 ^ 512 ∧
      t.res = if (s.wide 1).toNat < s.arg2.toNat then 1 else 0

/-- The integer laws of R125: the exact identities of all four operations, the two identity laws, and the inverse law. -/
def Obligations.AdditiveLaws : Prop :=
  ∀ (x y : Wide) (v : Word),
    x.toNat + y.toNat = (addWide x y).1.toNat + (addWide x y).2.toNat * 2 ^ 512 ∧
    x.toNat + v.toNat = (addScalar x v).1.toNat + (addScalar x v).2.toNat * 2 ^ 512 ∧
    x.toNat + (subWide x y).2.toNat * 2 ^ 512 = (subWide x y).1.toNat + y.toNat ∧
    x.toNat + (subScalar x v).2.toNat * 2 ^ 512 = (subScalar x v).1.toNat + v.toNat ∧
    addWide x 0 = (x, false) ∧ subWide x 0 = (x, false) ∧
    subWide (addWide x y).1 y = (x, (addWide x y).2)

/-! ### Logical Engine -/

/-- AND, OR and XOR (R141, R142, R143): each limb of dest is the operator on the limbs of a and b; RES is 0. -/
def Obligations.BinaryLogicIsLimbwise : Prop :=
  encode .and = 0x20 ∧ encode .or = 0x21 ∧ encode .xor = 0x22 ∧
  ∀ s : State, BuffersReady s [(0, .write), (1, .read), (2, .read)] →
    (Completes .and s [0] fun t =>
      (∀ i < 8, limb (t.wide 0) i = limb (s.wide 1) i &&& limb (s.wide 2) i) ∧ t.res = 0) ∧
    (Completes .or s [0] fun t =>
      (∀ i < 8, limb (t.wide 0) i = limb (s.wide 1) i ||| limb (s.wide 2) i) ∧ t.res = 0) ∧
    (Completes .xor s [0] fun t =>
      (∀ i < 8, limb (t.wide 0) i = limb (s.wide 1) i ^^^ limb (s.wide 2) i) ∧ t.res = 0)

/-- NOT (R144): each limb XOR 0xFFFF_FFFF_FFFF_FFFF, so dest = 2^512 - 1 - a; RES is 0. -/
def Obligations.NotComplements : Prop :=
  encode .not = 0x23 ∧ ∀ s : State, BuffersReady s [(0, .write), (1, .read)] →
    Completes .not s [0] fun t =>
      (∀ i < 8, limb (t.wide 0) i = limb (s.wide 1) i ^^^ 0xFFFFFFFFFFFFFFFF#64) ∧
      (t.wide 0).toNat = 2 ^ 512 - 1 - (s.wide 1).toNat ∧ t.res = 0

/-- The limb-by-limb operators are the operators on whole values (R140), with the laws of R145. -/
def Obligations.LogicLaws : Prop :=
  ∀ x y : Wide, limbwise (fun p q => p &&& q) x y = x &&& y ∧ limbwise (fun p q => p ||| q) x y = x ||| y ∧
    limbwise (fun p q => p ^^^ q) x y = x ^^^ y ∧ notWide x = ~~~x ∧
    limbwise (fun p q => p &&& q) x (notWide x) = 0 ∧
    limbwise (fun p q => p ||| q) x (notWide x) = BitVec.allOnes 512 ∧ limbwise (fun p q => p ^^^ q) x x = 0

/-! ### Shift Engine -/

/-- SHR (R161): dest is floor(src / 2^n) for the whole 64-bit count n in ARG2. -/
def Obligations.ShrShiftsRight : Prop :=
  encode .shr = 0x30 ∧ ∀ s : State, BuffersReady s [(0, .write), (1, .read)] →
    Completes .shr s [0] fun t => (t.wide 0).toNat = (s.wide 1).toNat / 2 ^ s.arg2.toNat ∧ t.res = 0

/-- SHL (R162): dest is (src * 2^n) mod 2^512 for the whole 64-bit count n in ARG2. -/
def Obligations.ShlShiftsLeft : Prop :=
  encode .shl = 0x31 ∧ ∀ s : State, BuffersReady s [(0, .write), (1, .read)] →
    Completes .shl s [0] fun t => (t.wide 0).toNat = (s.wide 1).toNat * 2 ^ s.arg2.toNat % 2 ^ 512 ∧ t.res = 0

/-- The limb-level form of both shifts (R163): with w = n div 64 and r = n mod 64, SHR takes limbs i-w and i-w-1, SHL limbs i+w
and i+w+1, limbs outside 0..7 being 0. -/
def Obligations.ShiftLimbForm : Prop :=
  ∀ (x : Wide) (n : Word) (i : Nat), i < 8 →
    limb (shrWide x n) i =
      ((if n.toNat / 64 ≤ i then limb x (i - n.toNat / 64) else 0) >>> (n.toNat % 64)) |||
      (if n.toNat % 64 ≠ 0 then
        (if n.toNat / 64 + 1 ≤ i then limb x (i - n.toNat / 64 - 1) else 0) <<< (64 - n.toNat % 64)
      else 0) ∧
    limb (shlWide x n) i =
      ((if i + n.toNat / 64 < 8 then limb x (i + n.toNat / 64) else 0) <<< (n.toNat % 64)) |||
      (if n.toNat % 64 ≠ 0 then
        (if i + n.toNat / 64 + 1 < 8 then limb x (i + n.toNat / 64 + 1) else 0) >>> (64 - n.toNat % 64)
      else 0)

/-- The laws of R165: right then left and left then right by one count, counts 0 and 512, and composition of counts. -/
def Obligations.ShiftLaws : Prop :=
  ∀ (x : Wide) (m n : Word),
    (n.toNat < 512 → (shlWide (shrWide x n) n).toNat = x.toNat - x.toNat % 2 ^ n.toNat ∧
      (shrWide (shlWide x n) n).toNat = x.toNat % 2 ^ (512 - n.toNat)) ∧
    shrWide x 0 = x ∧ shrWide x 512 = 0 ∧
    (m.toNat + n.toNat < 2 ^ 64 → shrWide (shrWide x m) n = shrWide x (m + n) ∧
      shlWide (shlWide x m) n = shlWide x (m + n))

/-! ### Bit-Scan Engine -/

/-- MSB (R181): the first nonzero limb's highest set bit, at 64*(7-i) + h; the zero value gives -1. -/
def Obligations.MsbFindsHighestBit : Prop :=
  encode .msb = 0x40 ∧ ∀ s : State, BuffersReady s [(0, .read)] →
    Completes .msb s [] fun t =>
      ((∀ i < 8, limb (s.wide 0) i = 0) → t.res = 0xFFFFFFFFFFFFFFFF#64) ∧
      ∀ i < 8, ∀ h < 64, (∀ k < i, limb (s.wide 0) k = 0) → (limb (s.wide 0) i).getLsbD h = true →
        (∀ b, h < b → (limb (s.wide 0) i).getLsbD b = false) → t.res = BitVec.ofNat 64 (64 * (7 - i) + h)

/-- LSB (R182): from limb 7 down, the first nonzero limb's lowest set bit, at 64*(7-i) + l; the zero value gives -1. -/
def Obligations.LsbFindsLowestBit : Prop :=
  encode .lsb = 0x41 ∧ ∀ s : State, BuffersReady s [(0, .read)] →
    Completes .lsb s [] fun t =>
      ((∀ i < 8, limb (s.wide 0) i = 0) → t.res = 0xFFFFFFFFFFFFFFFF#64) ∧
      ∀ i < 8, ∀ l < 64, (∀ k, i < k → k < 8 → limb (s.wide 0) k = 0) → (limb (s.wide 0) i).getLsbD l = true →
        (∀ b < l, (limb (s.wide 0) i).getLsbD b = false) → t.res = BitVec.ofNat 64 (64 * (7 - i) + l)

/-- The bit scans by magnitude (R181, R182) and the laws of R183: MSB is floor(log2 x), LSB the largest k with 2^k dividing x,
both -1 for zero, and equal exactly for powers of two. -/
def Obligations.BitScanLaws : Prop :=
  msbWide 0 = -1 ∧ lsbWide 0 = -1 ∧
  ∀ x : Wide, x ≠ 0 → msbWide x = (Nat.log2 x.toNat : Int) ∧
    (∃ k : Nat, lsbWide x = (k : Int) ∧ k < 512 ∧ x.toNat % 2 ^ k = 0 ∧ x.toNat % 2 ^ (k + 1) ≠ 0) ∧
    lsbWide x ≤ msbWide x ∧ shrWide x (resOfInt (msbWide x)) = 1 ∧
    shlWide (shrWide x (resOfInt (lsbWide x))) (resOfInt (lsbWide x)) = x ∧
    (msbWide x = lsbWide x ↔ ∃ k < 512, x.toNat = 2 ^ k)

/-! ### Multiplicative Engine -/

/-- MUL (R200): the product P is exact; dest_low takes P mod 2^512 and then dest_high takes P div 2^512, so that where the two
overlap the bytes are dest_high's (R62). -/
def Obligations.MulWritesFullProduct : Prop :=
  encode .mul = 0x50 ∧ ∀ s : State, BuffersReady s [(0, .write), (1, .write), (2, .read), (3, .read)] →
    Completes .mul s [0, 1] fun t =>
      (t.wide 1).toNat = (s.wide 2).toNat * (s.wide 3).toNat / 2 ^ 512 ∧
      (∀ i < 8, ∀ k < 8, ¬ InBuffer s 1 (s.addr 0 + 8 * i + k) → t.mem.read (s.addr 0 + 8 * i + k) =
        BitVec.ofNat 8 ((s.wide 2).toNat * (s.wide 3).toNat % 2 ^ 512 / 2 ^ (64 * (7 - i) + 8 * k))) ∧
      ((∀ a, InBuffer s 0 a → ¬ InBuffer s 1 a) →
        (t.wide 0).toNat = (s.wide 2).toNat * (s.wide 3).toNat % 2 ^ 512) ∧
      t.res = 0

/-- MULLO (R201): dest_low takes P mod 2^512, RES is 1 exactly if P >= 2^512. -/
def Obligations.MulloWritesLowProduct : Prop :=
  encode .mullo = 0x51 ∧ ∀ s : State, BuffersReady s [(0, .write), (1, .read), (2, .read)] →
    Completes .mullo s [0] fun t =>
      (t.wide 0).toNat = (s.wide 1).toNat * (s.wide 2).toNat % 2 ^ 512 ∧
      t.res = if 2 ^ 512 ≤ (s.wide 1).toNat * (s.wide 2).toNat then 1 else 0

/-- DIV (R202): for a nonzero divisor, the quotient and then the remainder are written, so that where the two overlap the bytes
are the remainder's (R62). A zero divisor ends in DIVIDE_BY_ZERO with no memory written and RES unchanged. -/
def Obligations.DivWritesQuotientAndRemainder : Prop :=
  encode .div = 0x52 ∧ ∀ s : State, BuffersReady s [(0, .write), (1, .write), (2, .read), (3, .read)] →
    (s.wide 3 ≠ 0 → Completes .div s [0, 1] fun t =>
      (t.wide 1).toNat = (s.wide 2).toNat % (s.wide 3).toNat ∧
      (∀ i < 8, ∀ k < 8, ¬ InBuffer s 1 (s.addr 0 + 8 * i + k) → t.mem.read (s.addr 0 + 8 * i + k) =
        BitVec.ofNat 8 ((s.wide 2).toNat / (s.wide 3).toNat / 2 ^ (64 * (7 - i) + 8 * k))) ∧
      ((∀ a, InBuffer s 0 a → ¬ InBuffer s 1 a) → (t.wide 0).toNat = (s.wide 2).toNat / (s.wide 3).toNat) ∧
      t.res = 0) ∧
    (s.wide 3 = 0 → ∃ t, exec .div s = .next t ∧ t.status.err = .divideByZero ∧ t.mem = s.mem ∧ t.res = s.res)

/-- The laws of R204, and the limb view of the product in R200: P is the sum of the limb products at their weights; the high
half is 0 exactly if P fits; multiplying by 1 and dividing by oneself; quotient times divisor plus remainder gives
the dividend with no carry and no high half. -/
def Obligations.MultiplicativeLaws : Prop :=
  ∀ x y : Wide,
    product x y = ((List.range 8).map fun i => ((List.range 8).map fun j =>
      (limb x i).toNat * (limb y j).toNat * 2 ^ (64 * ((7 - i) + (7 - j)))).sum).sum ∧
    (2 ^ 512 ≤ product x y ↔ productHigh x y ≠ 0) ∧ productLow x 1 = x ∧ productHigh x 1 = 0 ∧
    (y ≠ 0 → quotient y y = 1 ∧ remainder y y = 0 ∧ (remainder x y).toNat < y.toNat ∧
      productHigh (quotient x y) y = 0 ∧ addWide (productLow (quotient x y) y) (remainder x y) = (x, false))
end

