-- ==== Sys2Proof/Laws/Memory.lean ====
section
/-! SUPPORT. What each memory operation does, once: reading after a write, and the canonical form. -/

namespace Sys2Proof.Machine

@[simp] theorem Memory.read_nil (a : Nat) : Memory.read [] a = unlistedByte := rfl

theorem Memory.read_cons (c : Host.Cell) (m : Memory) (a : Nat) :
    Memory.read (c :: m) a = if c.1 = a then c.2 else Memory.read m a := rfl

/-- An address nothing lists reads as `unlistedByte`. -/
theorem Memory.read_of_not_listed (m : Memory) (a : Nat) (h : ∀ c ∈ m, c.1 ≠ a) : m.read a = unlistedByte := by
  induction m with
  | nil => rfl
  | cons c m ih =>
    rw [Memory.read_cons, if_neg (h c List.mem_cons_self)]
    exact ih fun d hd => h d (List.mem_cons_of_mem c hd)

theorem Memory.mem_erase (m : Memory) (a : Nat) (c : Host.Cell) : c ∈ m.erase a ↔ c ∈ m ∧ c.1 ≠ a := by
  simp [Memory.erase]

theorem Memory.read_erase (m : Memory) (a x : Nat) :
    (m.erase a).read x = if x = a then unlistedByte else m.read x := by
  by_cases hx : x = a
  · subst hx
    rw [if_pos rfl]
    exact Memory.read_of_not_listed _ _ fun c hc => ((Memory.mem_erase m x c).1 hc).2
  · rw [if_neg hx]
    induction m with
    | nil => rfl
    | cons c m ih =>
      by_cases hc : c.1 = a
      · have : Memory.erase (c :: m) a = Memory.erase m a := by simp [Memory.erase, hc]
        rw [this, ih, Memory.read_cons, if_neg (by omega)]
      · have : Memory.erase (c :: m) a = c :: Memory.erase m a := by simp [Memory.erase, hc]
        rw [this, Memory.read_cons, Memory.read_cons, ih]

theorem Memory.read_insert (m : Memory) (c : Host.Cell) (x : Nat) (h : ∀ d ∈ m, d.1 ≠ c.1) :
    (m.insert c).read x = if x = c.1 then c.2 else m.read x := by
  induction m with
  | nil => simp [Memory.insert, Memory.read_cons, eq_comm]
  | cons d m ih =>
    have hd := h d List.mem_cons_self
    rw [Memory.insert]
    split
    · simp [Memory.read_cons, eq_comm]
    · rw [Memory.read_cons, Memory.read_cons, ih fun e he => h e (List.mem_cons_of_mem d he)]
      by_cases hx : x = c.1
      · rw [if_pos hx, if_pos hx, if_neg (by omega)]
      · rw [if_neg hx, if_neg hx]

/-- Reading after a one-byte store, in any memory. -/
theorem Memory.read_write (m : Memory) (a x : Nat) (b : Byte) :
    (m.write a b).read x = if x = a then b else m.read x := by
  unfold Memory.write
  split
  · rename_i hb
    rw [Memory.read_erase, hb]
  · rw [Memory.read_insert _ _ _ fun d hd => ((Memory.mem_erase m a d).1 hd).2, Memory.read_erase]
    by_cases hx : x = a <;> simp [hx]

theorem Memory.mem_insert (m : Memory) (c d : Host.Cell) : d ∈ m.insert c ↔ d = c ∨ d ∈ m := by
  induction m with
  | nil => simp [Memory.insert]
  | cons e m ih =>
    rw [Memory.insert]
    split
    · simp
    · simp only [List.mem_cons, ih]
      tauto

theorem Memory.pairwise_insert (m : Memory) (c : Host.Cell) (hm : m.Pairwise fun x y => x.1 < y.1)
    (h : ∀ d ∈ m, d.1 ≠ c.1) : (m.insert c).Pairwise fun x y => x.1 < y.1 := by
  induction m with
  | nil => simp [Memory.insert]
  | cons d m ih =>
    obtain ⟨hd, hm'⟩ := List.pairwise_cons.1 hm
    have hne := h d List.mem_cons_self
    rw [Memory.insert]
    split
    · rename_i hlt
      refine List.pairwise_cons.2 ⟨fun e he => ?_, hm⟩
      rcases List.mem_cons.1 he with rfl | he
      · exact hlt
      · exact Nat.lt_trans hlt (hd e he)
    · refine List.pairwise_cons.2 ⟨fun e he => ?_, ih hm' fun e he => h e (List.mem_cons_of_mem d he)⟩
      rcases (Memory.mem_insert m c e).1 he with rfl | he
      · omega
      · exact hd e he

/-- A one-byte store keeps the canonical form. -/
theorem Memory.wf_write (m : Memory) (a : Nat) (b : Byte) (hm : m.wf) : (m.write a b).wf := by
  have he : (m.erase a).wf :=
    ⟨hm.1.filter _, fun c hc => hm.2 c ((Memory.mem_erase m a c).1 hc).1⟩
  unfold Memory.write
  split
  · exact he
  · rename_i hb
    refine ⟨Memory.pairwise_insert _ _ he.1 fun d hd => ((Memory.mem_erase m a d).1 hd).2, fun c hc => ?_⟩
    rcases (Memory.mem_insert _ _ _).1 hc with rfl | hc
    · exact hb
    · exact he.2 c hc

/-- A listed address after a one-byte store was listed before or is the one stored to. -/
theorem Memory.mem_write (m : Memory) (a : Nat) (b : Byte) (c : Host.Cell) (hc : c ∈ m.write a b) :
    c ∈ m ∨ c.1 = a := by
  unfold Memory.write at hc
  split at hc
  · exact .inl ((Memory.mem_erase m a c).1 hc).1
  · rcases (Memory.mem_insert _ _ _).1 hc with rfl | hc
    · exact .inr rfl
    · exact .inl ((Memory.mem_erase m a c).1 hc).1

/-- Reading after a store of several bytes. -/
theorem Memory.read_store (data : List Byte) (m : Memory) (a x : Nat) :
    (m.store a data).read x = if a ≤ x ∧ x < a + data.length then data.getD (x - a) 0 else m.read x := by
  induction data generalizing m a with
  | nil => simp [Memory.store]
  | cons b rest ih =>
    rw [Memory.store, ih, Memory.read_write]
    by_cases hx : x = a
    · subst hx
      simp
    · by_cases h : a + 1 ≤ x ∧ x < a + 1 + rest.length
      · have e : x - a = (x - (a + 1)) + 1 := by omega
        rw [if_pos h, if_pos (by simp; omega), e]
        simp
      · rw [if_neg h, if_neg hx, if_neg (by simp; omega)]

/-- A store of several bytes keeps the canonical form. -/
theorem Memory.wf_store (data : List Byte) (m : Memory) (a : Nat) (hm : m.wf) : (m.store a data).wf := by
  induction data generalizing m a with
  | nil => exact hm
  | cons b rest ih => exact ih _ _ (Memory.wf_write m a b hm)

/-- A listed address after a store was listed before or lies in the stored range. -/
theorem Memory.mem_store (data : List Byte) (m : Memory) (a : Nat) (c : Host.Cell) (hc : c ∈ m.store a data) :
    c ∈ m ∨ (a ≤ c.1 ∧ c.1 < a + data.length) := by
  induction data generalizing m a with
  | nil => exact .inl hc
  | cons b rest ih =>
    rcases ih _ _ hc with hc | ⟨h₁, h₂⟩
    · rcases Memory.mem_write m a b c hc with hc | hc
      · exact .inl hc
      · exact .inr (by simp; omega)
    · exact .inr (by simp; omega)

@[simp] theorem Memory.length_bytes (m : Memory) (a n : Nat) : (m.bytes a n).length = n := by
  simp [Memory.bytes]

/-- The bytes read back from where they were stored. -/
theorem Memory.bytes_store (m : Memory) (a : Nat) (data : List Byte) :
    (m.store a data).bytes a data.length = data := by
  refine List.ext_getElem (by simp) fun k h₁ h₂ => ?_
  simp only [Memory.bytes, List.getElem_map, List.getElem_range, Memory.read_store]
  rw [if_pos ⟨by omega, by omega⟩]
  simp [h₂]

/-- Bytes read the same where every byte reads the same. -/
theorem Memory.bytes_congr (m m' : Memory) (a n : Nat) (h : ∀ k < n, m.read (a + k) = m'.read (a + k)) :
    m.bytes a n = m'.bytes a n :=
  List.map_congr_left fun k hk => h k (List.mem_range.1 hk)

/-- Memory right after reset is in canonical form. -/
theorem Memory.wf_reset : State.reset.mem.wf := by decide

end Sys2Proof.Machine
end

