-- ==== Sys2Proof/Laws/Wide.lean ====
section
/-! SUPPORT. Limbs, bytes and buffers: a wide value is its limbs, a limb its bytes, and a buffer written reads back. -/

namespace Sys2Proof.Machine

/-! ### Bytes -/

@[simp] theorem length_bytesLE (n v : Nat) : (bytesLE n v).length = n := by simp [bytesLE]

theorem byteOf_toNat {w : Nat} (v : BitVec w) (k : Nat) : byteOf v.toNat k = v.extractLsb' (8 * k) 8 := by
  simp [byteOf, BitVec.extractLsb', Nat.shiftRight_eq_div_pow]

theorem getD_bytesLE (n v k : Nat) (hk : k < n) : (bytesLE n v).getD k 0 = byteOf v k := by
  simp [bytesLE, hk]

theorem ofBytesLE_lt (bs : List Byte) : ofBytesLE bs < 2 ^ (8 * bs.length) := by
  induction bs with
  | nil => simp [ofBytesLE]
  | cons b bs ih =>
    have hb := b.isLt
    have : 2 ^ (8 * (b :: bs).length) = 256 * 2 ^ (8 * bs.length) := by
      rw [List.length_cons, Nat.mul_add, Nat.pow_add]; ring
    rw [ofBytesLE, this]
    omega

/-- Byte `k` of the number the bytes write is the `k`-th of them. -/
theorem byteOf_ofBytesLE (bs : List Byte) (k : Nat) : byteOf (ofBytesLE bs) k = bs.getD k 0 := by
  induction bs generalizing k with
  | nil => simp [ofBytesLE, byteOf]
  | cons b bs ih =>
    have hb := b.isLt
    cases k with
    | zero =>
      apply BitVec.eq_of_toNat_eq
      simp only [byteOf, ofBytesLE, BitVec.toNat_ofNat, List.getD_cons_zero, Nat.mul_zero, Nat.pow_zero, Nat.div_one]
      omega
    | succ k =>
      have e : (b.toNat + 256 * ofBytesLE bs) / 2 ^ (8 * (k + 1)) = ofBytesLE bs / 2 ^ (8 * k) := by
        have : (2 : Nat) ^ (8 * (k + 1)) = 256 * 2 ^ (8 * k) := by rw [Nat.mul_add, Nat.pow_add]; ring
        rw [this, ← Nat.div_div_eq_div_mul, Nat.add_mul_div_left _ _ (by decide), Nat.div_eq_of_lt hb, Nat.zero_add]
      have := ih k
      simp only [byteOf, ofBytesLE, e, List.getD_cons_succ] at this ⊢
      exact this

/-- A number of `n` bytes is what its bytes write. -/
theorem ofBytesLE_bytesLE (n v : Nat) : ofBytesLE (bytesLE n v) = v % 2 ^ (8 * n) := by
  induction n generalizing v with
  | zero => simp [bytesLE, ofBytesLE, Nat.mod_one]
  | succ n ih =>
    have e : bytesLE (n + 1) v = byteOf v 0 :: bytesLE n (v / 256) := by
      simp only [bytesLE, List.range_succ_eq_map, List.map_cons, List.map_map]
      refine congrArg _ (List.map_congr_left fun k _ => ?_)
      simp only [Function.comp, byteOf, Nat.div_div_eq_div_mul]
      congr 2
      rw [Nat.succ_eq_add_one, Nat.mul_add, Nat.pow_add]; ring
    rw [e, ofBytesLE, ih]
    have h2 : (2 : Nat) ^ (8 * (n + 1)) = 256 * 2 ^ (8 * n) := by rw [Nat.mul_add, Nat.pow_add]; ring
    rw [h2, Nat.mod_mul]
    simp [byteOf]

/-- A word is what its eight bytes write. -/
theorem ofNat_ofBytesLE_bytesLE (v : Word) : BitVec.ofNat 64 (ofBytesLE (bytesLE 8 v.toNat)) = v := by
  rw [ofBytesLE_bytesLE, Nat.mod_eq_of_lt v.isLt]
  simp

/-! ### Limbs -/

/-- The number the limbs write, the first the least significant. -/
def natOfLimbsLE : List Limb → Nat
  | [] => 0
  | l :: ls => l.toNat + 2 ^ 64 * natOfLimbsLE ls

theorem natOfLimbs_append (ls : List Limb) (l : Limb) : natOfLimbs (ls ++ [l]) = natOfLimbs ls * 2 ^ 64 + l.toNat := by
  simp [natOfLimbs]

theorem natOfLimbs_reverse (ls : List Limb) : natOfLimbs ls.reverse = natOfLimbsLE ls := by
  induction ls with
  | nil => rfl
  | cons l ls ih => rw [List.reverse_cons, natOfLimbs_append, ih, natOfLimbsLE]; ring

theorem natOfLimbsLE_lt (ls : List Limb) : natOfLimbsLE ls < 2 ^ (64 * ls.length) := by
  induction ls with
  | nil => simp [natOfLimbsLE]
  | cons l ls ih =>
    have hl := l.isLt
    have : 2 ^ (64 * (l :: ls).length) = 2 ^ 64 * 2 ^ (64 * ls.length) := by
      rw [List.length_cons, Nat.mul_add, Nat.pow_add]; ring
    rw [natOfLimbsLE, this]
    have h1 : 2 ^ 64 * (natOfLimbsLE ls + 1) ≤ 2 ^ 64 * 2 ^ (64 * ls.length) := Nat.mul_le_mul_left _ ih
    omega

theorem natOfLimbsLE_div_mod (ls : List Limb) (k : Nat) :
    natOfLimbsLE ls / 2 ^ (64 * k) % 2 ^ 64 = (ls.getD k 0).toNat := by
  induction ls generalizing k with
  | nil => simp [natOfLimbsLE]
  | cons l ls ih =>
    have hl := l.isLt
    cases k with
    | zero =>
      simp only [natOfLimbsLE, List.getD_cons_zero, Nat.mul_zero, Nat.pow_zero, Nat.div_one]
      omega
    | succ k =>
      have : (2 : Nat) ^ (64 * (k + 1)) = 2 ^ 64 * 2 ^ (64 * k) := by rw [Nat.mul_add, Nat.pow_add]; ring
      rw [natOfLimbsLE, this, ← Nat.div_div_eq_div_mul, Nat.add_mul_div_left _ _ (by decide), Nat.div_eq_of_lt hl,
        Nat.zero_add, ih, List.getD_cons_succ]

theorem natOfLimbs_eq (ls : List Limb) : natOfLimbs ls = natOfLimbsLE ls.reverse := by
  rw [← natOfLimbs_reverse, List.reverse_reverse]

@[simp] theorem length_limbs (v : Wide) : (limbs v).length = 8 := by simp [limbs]

theorem limb_toNat (v : Wide) (i : Nat) : (limb v i).toNat = v.toNat / 2 ^ (64 * (7 - i)) % 2 ^ 64 := by
  simp [limb, Nat.shiftRight_eq_div_pow]

theorem getD_limbs (v : Wide) (i : Nat) (hi : i < 8) : (limbs v).getD i 0 = limb v i := by
  simp [limbs, hi]

theorem ofLimbs_toNat (ls : List Limb) (h : ls.length = 8) : (ofLimbs ls).toNat = natOfLimbs ls := by
  rw [ofLimbs, BitVec.toNat_ofNat, Nat.mod_eq_of_lt]
  have := natOfLimbsLE_lt ls.reverse
  rw [List.length_reverse, h, show 64 * 8 = 512 from rfl] at this
  rw [natOfLimbs_eq]
  exact this

/-- The limbs of a value built from eight limbs are those limbs. -/
theorem limb_ofLimbs (ls : List Limb) (h : ls.length = 8) (i : Nat) (hi : i < 8) : limb (ofLimbs ls) i = ls.getD i 0 := by
  apply BitVec.eq_of_toNat_eq
  rw [limb_toNat, ofLimbs_toNat ls h, natOfLimbs_eq, natOfLimbsLE_div_mod]
  congr 1
  have h1 : 7 - i < ls.reverse.length := by simp [h]; omega
  have h2 : i < ls.length := by omega
  simp only [List.getD_eq_getElem?_getD, List.getElem?_eq_getElem h1, List.getElem?_eq_getElem h2,
    List.getElem_reverse, Option.getD_some]
  congr 1
  omega

/-- Two values with the same limbs are equal. -/
theorem eq_of_limbs (x y : Wide) (h : ∀ i < 8, limb x i = limb y i) : x = y := by
  apply BitVec.eq_of_getLsbD_eq
  intro b hb
  have := congrArg (fun l : Limb => l.getLsbD (b % 64)) (h (7 - b / 64) (by omega))
  simp only [limb, BitVec.getLsbD_extractLsb'] at this
  have e : 64 * (7 - (7 - b / 64)) + b % 64 = b := by omega
  rw [e] at this
  simpa [Nat.mod_lt] using this

/-- A value is what its limbs write. -/
@[simp] theorem ofLimbs_limbs (x : Wide) : ofLimbs (limbs x) = x :=
  eq_of_limbs _ _ fun i hi => by rw [limb_ofLimbs _ (length_limbs x) i hi, getD_limbs x i hi]

theorem natOfLimbs_limbs (x : Wide) : natOfLimbs (limbs x) = x.toNat := by
  rw [← ofLimbs_toNat _ (length_limbs x), ofLimbs_limbs]

/-! ### Buffers -/

/-- Byte `k` of the buffer that holds a value (R53). -/
def bufferByte (v : Wide) (k : Nat) : Byte := v.extractLsb' (64 * (7 - k / 8) + 8 * (k % 8)) 8

theorem byteOf_limb (v : Wide) (i k : Nat) (hk : k < 8) :
    byteOf (limb v i).toNat k = v.extractLsb' (64 * (7 - i) + 8 * k) 8 := by
  rw [byteOf_toNat]
  apply BitVec.eq_of_getLsbD_eq
  intro b hb
  have hlt : 8 * k + b < 64 := by omega
  simp [limb, hlt, Nat.add_assoc]

/-- Reading a byte after a buffer is written: inside it the value's byte, outside it what was there (R54). -/
theorem read_writeWide (m : Memory) (a : Nat) (v : Wide) (x : Nat) :
    (writeWide m a v).read x = if a ≤ x ∧ x < a + 64 then bufferByte v (x - a) else m.read x := by
  have key : ∀ n, ((List.range n).foldl (fun m i => memWrite m (a + 8 * i) 8 (limb v i).toNat) m).read x =
      if a ≤ x ∧ x < a + 8 * n then bufferByte v (x - a) else m.read x := by
    intro n
    induction n with
    | zero => simp
    | succ n ih =>
      rw [List.range_succ, List.foldl_append, List.foldl_cons, List.foldl_nil, memWrite, Memory.read_store, ih]
      rw [length_bytesLE]
      by_cases h : a + 8 * n ≤ x ∧ x < a + 8 * n + 8
      · rw [if_pos h, if_pos (by omega), getD_bytesLE _ _ _ (by omega), byteOf_limb _ _ _ (by omega), bufferByte]
        congr 1
        have h1 : (x - a) / 8 = n := by omega
        have h2 : (x - a) % 8 = x - (a + 8 * n) := by omega
        rw [h1, h2]
      · rw [if_neg h]
        by_cases h' : a ≤ x ∧ x < a + 8 * n
        · rw [if_pos h', if_pos (by omega)]
        · rw [if_neg h', if_neg (by omega)]
  exact key 8

/-- Writing a buffer keeps the canonical form of memory. -/
theorem wf_writeWide (m : Memory) (a : Nat) (v : Wide) (hm : m.wf) : (writeWide m a v).wf := by
  have key : ∀ (l : List Nat) (m : Memory), m.wf →
      (l.foldl (fun m i => memWrite m (a + 8 * i) 8 (limb v i).toNat) m).wf := by
    intro l
    induction l with
    | nil => exact fun m hm => hm
    | cons i l ih => exact fun m hm => ih _ (Memory.wf_store _ _ _ hm)
  exact key _ m hm

/-- A listed address after a buffer is written was listed before or lies in the buffer. -/
theorem mem_writeWide (m : Memory) (a : Nat) (v : Wide) (c : Host.Cell) (hc : c ∈ writeWide m a v) :
    c ∈ m ∨ (a ≤ c.1 ∧ c.1 < a + 64) := by
  have key : ∀ (n : Nat), n ≤ 8 →
      c ∈ (List.range n).foldl (fun m i => memWrite m (a + 8 * i) 8 (limb v i).toNat) m →
      c ∈ m ∨ (a ≤ c.1 ∧ c.1 < a + 64) := by
    intro n
    induction n with
    | zero => exact fun _ h => .inl h
    | succ n ih =>
      intro hn h
      rw [List.range_succ, List.foldl_append, List.foldl_cons, List.foldl_nil] at h
      rcases Memory.mem_store _ _ _ _ h with h | h
      · exact ih (by omega) h
      · rw [length_bytesLE] at h
        exact .inr (by omega)
  exact key 8 (by omega) hc

theorem byteOf_memRead (m : Memory) (a n k : Nat) (hk : k < n) : byteOf (memRead m a n) k = m.read (a + k) := by
  rw [memRead, byteOf_ofBytesLE]
  simp [Memory.bytes, hk]

theorem memRead_lt (m : Memory) (a n : Nat) : memRead m a n < 2 ^ (8 * n) := by
  have := ofBytesLE_lt (m.bytes a n)
  rwa [Memory.length_bytes] at this

/-- The limbs of the value read from a buffer (R52). -/
theorem limb_readWide (m : Memory) (a i : Nat) (hi : i < 8) :
    limb (readWide m a) i = BitVec.ofNat 64 (memRead m (a + 8 * i) 8) := by
  rw [readWide, limb_ofLimbs _ (by simp) i hi]
  simp [hi]

/-- The bytes of a buffer are the bytes of the value read from it (R53). -/
theorem bufferByte_readWide (m : Memory) (a k : Nat) (hk : k < 64) : bufferByte (readWide m a) k = m.read (a + k) := by
  have h8 : k % 8 < 8 := Nat.mod_lt _ (by decide)
  rw [bufferByte, ← byteOf_limb _ _ _ h8, limb_readWide _ _ _ (by omega), BitVec.toNat_ofNat,
    Nat.mod_eq_of_lt (memRead_lt _ _ 8), byteOf_memRead _ _ _ _ h8]
  congr 1
  omega

/-- A value is determined by the bytes of its buffer. -/
theorem eq_of_bufferByte (x y : Wide) (h : ∀ k < 64, bufferByte x k = bufferByte y k) : x = y := by
  apply BitVec.eq_of_getLsbD_eq
  intro b hb
  have := congrArg (fun l : Byte => l.getLsbD (b % 8)) (h (8 * (7 - b / 64) + b % 64 / 8) (by omega))
  simp only [bufferByte, BitVec.getLsbD_extractLsb'] at this
  have e : 64 * (7 - (8 * (7 - b / 64) + b % 64 / 8) / 8) + 8 * ((8 * (7 - b / 64) + b % 64 / 8) % 8) + b % 8 = b := by
    omega
  rw [e] at this
  simpa [Nat.mod_lt] using this

/-- A buffer reads the same where its 64 bytes do. -/
theorem readWide_congr (m m' : Memory) (a : Nat) (h : ∀ k < 64, m.read (a + k) = m'.read (a + k)) :
    readWide m a = readWide m' a :=
  eq_of_bufferByte _ _ fun k hk => by rw [bufferByte_readWide _ _ _ hk, bufferByte_readWide _ _ _ hk, h k hk]

/-- A buffer whose bytes are a value's bytes reads as that value. -/
theorem readWide_eq (m : Memory) (a : Nat) (v : Wide) (h : ∀ k < 64, m.read (a + k) = bufferByte v k) :
    readWide m a = v :=
  eq_of_bufferByte _ _ fun k hk => by rw [bufferByte_readWide _ _ _ hk, h k hk]

/-- A buffer written reads back (R53, R54). -/
theorem readWide_writeWide_same (m : Memory) (a : Nat) (v : Wide) : readWide (writeWide m a v) a = v :=
  readWide_eq _ _ _ fun k hk => by
    rw [read_writeWide, if_pos ⟨by omega, by omega⟩, Nat.add_sub_cancel_left]

end Sys2Proof.Machine
end

