-- ==== Sys2Proof/Laws/Chains.lean ====
section
/-! SUPPORT. What the carry chain and the borrow chain compute (R120), over any number of limbs. -/

namespace Sys2Proof.Machine

@[simp] theorem length_addChain (ps : List (Limb × Limb)) (c : Nat) : (addChain ps c).1.length = ps.length := by
  induction ps generalizing c with
  | nil => rfl
  | cons p ps ih => simp [addChain, ih]

@[simp] theorem length_subChain (ps : List (Limb × Limb)) (w : Nat) : (subChain ps w).1.length = ps.length := by
  induction ps generalizing w with
  | nil => rfl
  | cons p ps ih => simp [subChain, ih]

/-- The exact sum is the sum limbs plus the carry out (R121). -/
theorem addChain_sum (ps : List (Limb × Limb)) (c : Nat) :
    natOfLimbsLE (addChain ps c).1 + 2 ^ (64 * ps.length) * (addChain ps c).2 =
      natOfLimbsLE (ps.map (·.1)) + natOfLimbsLE (ps.map (·.2)) + c := by
  induction ps generalizing c with
  | nil => simp [addChain, natOfLimbsLE]
  | cons p ps ih =>
    obtain ⟨x, y⟩ := p
    have h := ih ((x.toNat + y.toNat + c) / 2 ^ 64)
    have e : 2 ^ (64 * ((x, y) :: ps).length) = 2 ^ 64 * 2 ^ (64 * ps.length) := by
      rw [List.length_cons, Nat.mul_add, Nat.pow_add]; ring
    rw [e]
    simp only [addChain, natOfLimbsLE, List.map_cons, BitVec.toNat_ofNat]
    rw [Nat.mul_assoc]
    omega

/-- A carry out is a single bit. -/
theorem addChain_carry (ps : List (Limb × Limb)) (c : Nat) (hc : c ≤ 1) : (addChain ps c).2 ≤ 1 := by
  induction ps generalizing c with
  | nil => exact hc
  | cons p ps ih =>
    obtain ⟨x, y⟩ := p
    have hx := x.isLt
    have hy := y.isLt
    exact ih _ (by omega)

/-- A borrow out is a single bit. -/
theorem subChain_borrow (ps : List (Limb × Limb)) (w : Nat) (hw : w ≤ 1) : (subChain ps w).2 ≤ 1 := by
  induction ps generalizing w with
  | nil => exact hw
  | cons p ps ih =>
    obtain ⟨x, y⟩ := p
    refine ih _ ?_
    split <;> omega

/-- The exact difference is the difference limbs minus the borrow out (R123). -/
theorem subChain_difference (ps : List (Limb × Limb)) (w : Nat) (hw : w ≤ 1) :
    natOfLimbsLE (subChain ps w).1 + natOfLimbsLE (ps.map (·.2)) + w =
      natOfLimbsLE (ps.map (·.1)) + 2 ^ (64 * ps.length) * (subChain ps w).2 := by
  induction ps generalizing w with
  | nil => simp [subChain, natOfLimbsLE]
  | cons p ps ih =>
    obtain ⟨x, y⟩ := p
    have hx := x.isLt
    have hy := y.isLt
    have e : 2 ^ (64 * ((x, y) :: ps).length) = 2 ^ 64 * 2 ^ (64 * ps.length) := by
      rw [List.length_cons, Nat.mul_add, Nat.pow_add]; ring
    rw [e]
    simp only [subChain, natOfLimbsLE, List.map_cons, BitVec.toNat_ofInt]
    rw [Nat.mul_assoc]
    by_cases ht : (x.toNat : Int) - y.toNat - w < 0
    · have h := ih 1 (by omega)
      rw [if_pos ht]
      omega
    · have h := ih 0 (by omega)
      rw [if_neg ht]
      omega

/-- The carry chain limb by limb (R120): each carry is the one the limb below gives. -/
theorem addChain_ripple (ps : List (Limb × Limb)) (c : Nat) : ∃ f : Nat → Nat, f 0 = c ∧ f ps.length = (addChain ps c).2 ∧
    ∀ k < ps.length, ((addChain ps c).1.getD k 0).toNat =
        ((ps.getD k (0, 0)).1.toNat + (ps.getD k (0, 0)).2.toNat + f k) % 2 ^ 64 ∧
      f (k + 1) = ((ps.getD k (0, 0)).1.toNat + (ps.getD k (0, 0)).2.toNat + f k) / 2 ^ 64 := by
  induction ps generalizing c with
  | nil => exact ⟨fun _ => c, rfl, rfl, by simp⟩
  | cons p ps ih =>
    obtain ⟨x, y⟩ := p
    obtain ⟨f, h₀, h₁, h₂⟩ := ih ((x.toNat + y.toNat + c) / 2 ^ 64)
    refine ⟨fun k => if k = 0 then c else f (k - 1), rfl, ?_, fun k hk => ?_⟩
    · simpa [addChain] using h₁
    · cases k with
      | zero => simpa [addChain] using h₀
      | succ k => simpa [addChain] using h₂ k (by simpa using hk)

/-- The borrow chain limb by limb (R120). -/
theorem subChain_ripple (ps : List (Limb × Limb)) (w : Nat) : ∃ f : Nat → Nat, f 0 = w ∧ f ps.length = (subChain ps w).2 ∧
    ∀ k < ps.length, (((subChain ps w).1.getD k 0).toNat : Int) =
        (((ps.getD k (0, 0)).1.toNat : Int) - (ps.getD k (0, 0)).2.toNat - f k) % 2 ^ 64 ∧
      f (k + 1) = if ((ps.getD k (0, 0)).1.toNat : Int) - (ps.getD k (0, 0)).2.toNat - f k < 0 then 1 else 0 := by
  induction ps generalizing w with
  | nil => exact ⟨fun _ => w, rfl, rfl, by simp⟩
  | cons p ps ih =>
    obtain ⟨x, y⟩ := p
    obtain ⟨f, h₀, h₁, h₂⟩ := ih (if (x.toNat : Int) - y.toNat - w < 0 then 1 else 0)
    refine ⟨fun k => if k = 0 then w else f (k - 1), rfl, ?_, fun k hk => ?_⟩
    · simpa [subChain] using h₁
    · cases k with
      | zero =>
        refine ⟨?_, by simpa using h₀⟩
        simp only [subChain, List.getD_cons_zero, BitVec.toNat_ofInt, if_true]
        omega
      | succ k => simpa [subChain] using h₂ k (by simpa using hk)

end Sys2Proof.Machine
end

