-- ==== Sys2Proof/Laws/Engines.lean ====
section
/-! SUPPORT. What each engine's function computes, one lemma a function: the limbs or the number of its result. -/

namespace Sys2Proof.Machine

/-! ### Representation & Primitives, Logical Engine -/

theorem limb_getLsbD (x : Wide) (i b : Nat) (hb : b < 64) : (limb x i).getLsbD b = x.getLsbD (64 * (7 - i) + b) := by
  simp [limb, hb]

theorem zextWide_toNat (v : Word) : (zextWide v).toNat = v.toNat := by simp [zextWide]

theorem limb_zextWide (v : Word) (i : Nat) (hi : i < 8) : limb (zextWide v) i = if i = 7 then v else 0 := by
  apply BitVec.eq_of_getLsbD_eq
  intro b hb
  rw [limb_getLsbD _ _ _ hb]
  split
  · subst_vars
    simp [zextWide]
    omega
  · rw [zextWide, BitVec.getLsbD_setWidth, BitVec.getLsbD_of_ge v _ (by omega), Bool.and_false]
    simp

theorem limb_limbwise (f : Limb → Limb → Limb) (x y : Wide) (i : Nat) (hi : i < 8) :
    limb (limbwise f x y) i = f (limb x i) (limb y i) := by
  rw [limbwise, limb_ofLimbs _ (by simp) i hi]
  simp [limbs, hi]

theorem limb_notWide (x : Wide) (i : Nat) (hi : i < 8) : limb (notWide x) i = limb x i ^^^ 0xFFFFFFFFFFFFFFFF#64 := by
  rw [notWide, limb_ofLimbs _ (by simp) i hi]
  simp [limbs, hi]

/-! ### Additive Engine -/

/-- A scalar's limbs are those of its zero extension, so the scalar forms are the full-width ones (R122, R124). -/
theorem scalarLimbs_eq (v : Word) : scalarLimbs v = limbs (zextWide v) := by
  apply List.ext_getElem (by simp [scalarLimbs])
  intro k h₁ h₂
  have hk : k < 8 := by simpa using h₂
  simp only [limbs, List.getElem_map, List.getElem_range, limb_zextWide v k hk]
  have : k = 0 ∨ k = 1 ∨ k = 2 ∨ k = 3 ∨ k = 4 ∨ k = 5 ∨ k = 6 ∨ k = 7 := by omega
  rcases this with rfl | rfl | rfl | rfl | rfl | rfl | rfl | rfl <;> rfl

theorem addScalar_eq (x : Wide) (v : Word) : addScalar x v = addWide x (zextWide v) := by
  rw [addScalar, addWide, scalarPairs, limbPairs, scalarLimbs_eq]

theorem subScalar_eq (x : Wide) (v : Word) : subScalar x v = subWide x (zextWide v) := by
  rw [subScalar, subWide, scalarPairs, limbPairs, scalarLimbs_eq]

theorem length_limbPairs (x y : Wide) : (limbPairs x y).length = 8 := by simp [limbPairs]

theorem natOfLimbsLE_limbPairs (x y : Wide) : natOfLimbsLE ((limbPairs x y).map (·.1)) = x.toNat ∧
    natOfLimbsLE ((limbPairs x y).map (·.2)) = y.toNat := by
  constructor
  · rw [limbPairs, List.map_reverse, List.map_fst_zip (by simp), ← natOfLimbs_eq, natOfLimbs_limbs]
  · rw [limbPairs, List.map_reverse, List.map_snd_zip (by simp), ← natOfLimbs_eq, natOfLimbs_limbs]

theorem toNat_bne_zero (c : Nat) (h : c ≤ 1) : (c != 0).toNat = c := by
  obtain rfl | rfl : c = 0 ∨ c = 1 := by omega
  · rfl
  · rfl

/-- The exact identity of ADD (R125). -/
theorem addWide_exact (x y : Wide) :
    (addWide x y).1.toNat + 2 ^ 512 * (addWide x y).2.toNat = x.toNat + y.toNat := by
  have hs := addChain_sum (limbPairs x y) 0
  have hl := length_limbPairs x y
  rw [(natOfLimbsLE_limbPairs x y).1, (natOfLimbsLE_limbPairs x y).2, hl, show 64 * 8 = 512 from rfl, Nat.add_zero] at hs
  simp only [addWide, chainResult]
  rw [ofLimbs_toNat _ (by simp [hl]), natOfLimbs_reverse, toNat_bne_zero _ (addChain_carry _ 0 (by decide))]
  exact hs

/-- The exact identity of SUB (R125). -/
theorem subWide_exact (x y : Wide) :
    (subWide x y).1.toNat + y.toNat = x.toNat + 2 ^ 512 * (subWide x y).2.toNat := by
  have hs := subChain_difference (limbPairs x y) 0 (by decide)
  have hl := length_limbPairs x y
  rw [(natOfLimbsLE_limbPairs x y).1, (natOfLimbsLE_limbPairs x y).2, hl, show 64 * 8 = 512 from rfl, Nat.add_zero] at hs
  simp only [subWide, chainResult]
  rw [ofLimbs_toNat _ (by simp [hl]), natOfLimbs_reverse, toNat_bne_zero _ (subChain_borrow _ 0 (by decide))]
  exact hs

theorem getD_limbPairs (x y : Wide) (k : Nat) (hk : k < 8) :
    (limbPairs x y).getD k (0, 0) = (limb x (7 - k), limb y (7 - k)) := by
  simp only [limbPairs, limbs, List.getD_eq_getElem?_getD]
  rw [List.getElem?_reverse (by simp; omega)]
  have : 7 - k < 8 := by omega
  simp [this]

/-- A chain's limb in index order. -/
theorem limb_chainResult (r : List Limb × Nat) (hl : r.1.length = 8) (k : Nat) (hk : k < 8) :
    limb (chainResult r).1 (7 - k) = r.1.getD k 0 := by
  rw [chainResult, limb_ofLimbs _ (by simp [hl]) _ (by omega), List.getD_eq_getElem?_getD, List.getD_eq_getElem?_getD,
    List.getElem?_reverse (by omega)]
  congr 2
  omega

theorem resOfBit_toNat (c : Nat) (h : c ≤ 1) : (resOfBit (c != 0)).toNat = c := by
  obtain rfl | rfl : c = 0 ∨ c = 1 := by omega
  · rfl
  · rfl

/-- ADD's ripple (R121). -/
theorem addWide_ripple (x y : Wide) :
    AddRipple (limbNat x) (limbNat y) (addWide x y).1 (resOfBit (addWide x y).2).toNat := by
  have hl := length_limbPairs x y
  obtain ⟨c, h₀, h₁, h₂⟩ := addChain_ripple (limbPairs x y) 0
  rw [hl] at h₁ h₂
  refine ⟨c, h₀, h₁.trans (resOfBit_toNat _ (addChain_carry _ 0 (by decide))).symm, fun k hk => ?_⟩
  have h := h₂ k hk
  rw [getD_limbPairs x y k hk] at h
  rw [addWide, limb_chainResult _ (by simp [hl]) k hk]
  exact h

/-- SUB's ripple (R123). -/
theorem subWide_ripple (x y : Wide) :
    SubRipple (limbNat x) (limbNat y) (subWide x y).1 (resOfBit (subWide x y).2).toNat := by
  have hl := length_limbPairs x y
  obtain ⟨w, h₀, h₁, h₂⟩ := subChain_ripple (limbPairs x y) 0
  rw [hl] at h₁ h₂
  refine ⟨w, h₀, h₁.trans (resOfBit_toNat _ (subChain_borrow _ 0 (by decide))).symm, fun k hk => ?_⟩
  have h := h₂ k hk
  rw [getD_limbPairs x y k hk] at h
  rw [subWide, limb_chainResult _ (by simp [hl]) k hk]
  exact h

/-! ### Shift Engine -/

theorem shrWide_getLsbD (x : Wide) (n : Word) (b : Nat) : (shrWide x n).getLsbD b = x.getLsbD (n.toNat + b) := by
  unfold shrWide
  split
  · rw [BitVec.getLsbD_of_ge x _ (by omega)]
    simp
  · simp

theorem shlWide_getLsbD (x : Wide) (n : Word) (b : Nat) (hb : b < 512) :
    (shlWide x n).getLsbD b = (decide (n.toNat ≤ b) && x.getLsbD (b - n.toNat)) := by
  unfold shlWide
  split
  · have : ¬ n.toNat ≤ b := by omega
    simp [this]
  · rw [BitVec.getLsbD_shiftLeft, decide_eq_true hb, Bool.true_and]
    by_cases h : b < n.toNat
    · have : ¬ n.toNat ≤ b := by omega
      simp [h, this]
    · have : n.toNat ≤ b := by omega
      simp [h, this]

theorem shrWide_toNat (x : Wide) (n : Word) : (shrWide x n).toNat = x.toNat / 2 ^ n.toNat := by
  unfold shrWide
  split
  · rename_i h
    rw [Nat.div_eq_of_lt (Nat.lt_of_lt_of_le x.isLt (Nat.pow_le_pow_right (by decide) h))]
    exact BitVec.toNat_zero
  · rw [BitVec.toNat_ushiftRight, Nat.shiftRight_eq_div_pow]

theorem shlWide_toNat (x : Wide) (n : Word) : (shlWide x n).toNat = x.toNat * 2 ^ n.toNat % 2 ^ 512 := by
  unfold shlWide
  split
  · rename_i h
    obtain ⟨k, hk⟩ := Nat.exists_eq_add_of_le h
    rw [hk, Nat.pow_add, Nat.mul_left_comm, Nat.mul_mod_right]
    exact BitVec.toNat_zero
  · rw [BitVec.toNat_shiftLeft, Nat.shiftLeft_eq]

/-! ### Bit-Scan Engine -/

theorem highBit_eq (l : Limb) (n h : Nat) (hh : h < n) (hb : l.getLsbD h = true)
    (ha : ∀ b, h < b → l.getLsbD b = false) : highBit l n = h := by
  induction n with
  | zero => omega
  | succ n ih =>
    rw [highBit]
    by_cases e : h = n
    · subst e
      simp [hb]
    · rw [if_neg (by simp [ha n (by omega)]), ih (by omega)]

theorem lowBit_eq (l : Limb) (n h : Nat) (hn : n ≤ 64) (hh : 64 - n ≤ h) (h64 : h < 64) (hb : l.getLsbD h = true)
    (ha : ∀ b < h, l.getLsbD b = false) : lowBit l n = h := by
  induction n with
  | zero => omega
  | succ n ih =>
    rw [lowBit]
    by_cases e : h = 63 - n
    · subst e
      simp [hb]
    · rw [if_neg (by simp [ha (63 - n) (by omega)]), ih (by omega) (by omega)]

theorem scanHigh_eq (ls : List Limb) (i : Nat) (hi : i < ls.length) (hz : ∀ k < i, ls.getD k 0 = 0)
    (hn : ls.getD i 0 ≠ 0) :
    scanHigh ls = ((64 * (ls.length - 1 - i) + highBit (ls.getD i 0) 64 : Nat) : Int) := by
  induction ls generalizing i with
  | nil => simp at hi
  | cons l ls ih =>
    cases i with
    | zero =>
      simp at hn
      simp [scanHigh, hn]
    | succ i =>
      have h0 := hz 0 (by omega)
      simp at h0
      rw [scanHigh, if_neg (by simp [h0]), ih i (by simpa using hi) (fun k hk => by simpa using hz (k + 1) (by omega))
        (by simpa using hn)]
      simp
      omega

theorem scanLow_eq (ls : List Limb) (j i : Nat) (hi : i < ls.length) (hz : ∀ k < i, ls.getD k 0 = 0)
    (hn : ls.getD i 0 ≠ 0) : scanLow j ls = ((64 * (j + i) + lowBit (ls.getD i 0) 64 : Nat) : Int) := by
  induction ls generalizing i j with
  | nil => simp at hi
  | cons l ls ih =>
    cases i with
    | zero =>
      simp at hn
      simp [scanLow, hn]
    | succ i =>
      have h0 := hz 0 (by omega)
      simp at h0
      rw [scanLow, if_neg (by simp [h0]), ih (j + 1) i (by simpa using hi)
        (fun k hk => by simpa using hz (k + 1) (by omega)) (by simpa using hn)]
      simp
      omega

theorem scanHigh_zero (ls : List Limb) (hz : ∀ l ∈ ls, l = 0) : scanHigh ls = -1 := by
  induction ls with
  | nil => rfl
  | cons l ls ih => rw [scanHigh, if_neg (by simp [hz l (by simp)]), ih fun k hk => hz k (by simp [hk])]

theorem scanLow_zero (ls : List Limb) (j : Nat) (hz : ∀ l ∈ ls, l = 0) : scanLow j ls = -1 := by
  induction ls generalizing j with
  | nil => rfl
  | cons l ls ih => rw [scanLow, if_neg (by simp [hz l (by simp)]), ih _ fun k hk => hz k (by simp [hk])]

/-! ### Multiplicative Engine -/

/-- A quotient by M of a number below M * M is below M. -/
theorem div_mod_of_lt_mul (a M : Nat) (h : a < M * M) : a / M % M = a / M :=
  Nat.mod_eq_of_lt (Nat.div_lt_of_lt_mul h)

theorem product_lt (x y : Wide) : product x y < 2 ^ 512 * 2 ^ 512 := Nat.mul_lt_mul'' x.isLt y.isLt

theorem productLow_toNat (x y : Wide) : (productLow x y).toNat = product x y % 2 ^ 512 := by
  rw [productLow, BitVec.toNat_ofNat, Nat.mod_mod]

theorem productHigh_toNat (x y : Wide) : (productHigh x y).toNat = product x y / 2 ^ 512 := by
  rw [productHigh, BitVec.toNat_ofNat, div_mod_of_lt_mul _ _ (product_lt x y)]

theorem quotient_toNat (n d : Wide) : (quotient n d).toNat = n.toNat / d.toNat := by
  rw [quotient, BitVec.toNat_ofNat, Nat.mod_eq_of_lt (Nat.lt_of_le_of_lt (Nat.div_le_self _ _) n.isLt)]

theorem remainder_toNat (n d : Wide) : (remainder n d).toNat = n.toNat % d.toNat := by
  rw [remainder, BitVec.toNat_ofNat, Nat.mod_eq_of_lt (Nat.lt_of_le_of_lt (Nat.mod_le _ _) n.isLt)]

end Sys2Proof.Machine
end

