-- ==== Sys2Proof/Laws/State.lean ====
section
/-! SUPPORT. What each named update of State does to each field, so that no later proof unfolds a record update. -/

namespace Sys2Proof.Machine

/-! ### Writing an ARG (R25) -/

@[simp] theorem State.arg_zero (s : State) : s.arg 0 = s.arg0 := rfl
@[simp] theorem State.arg_one (s : State) : s.arg 1 = s.arg1 := rfl
@[simp] theorem State.arg_two (s : State) : s.arg 2 = s.arg2 := rfl
@[simp] theorem State.arg_three (s : State) : s.arg 3 = s.arg3 := rfl

/-- An ARG written reads back, and the others keep their values. -/
theorem State.arg_setArg (s : State) (j k : Fin 4) (v : Word) : (s.setArg j v).arg k = if k = j then v else s.arg k := by
  match j, k with
  | 0, 0 | 1, 1 | 2, 2 | 3, 3 => rfl
  | 0, 1 | 0, 2 | 0, 3 | 1, 0 | 1, 2 | 1, 3 | 2, 0 | 2, 1 | 2, 3 | 3, 0 | 3, 1 | 3, 2 => rfl

@[simp] theorem State.setArg_cmd (s : State) (j : Fin 4) (v : Word) : (s.setArg j v).cmd = s.cmd := by
  match j with | 0 | 1 | 2 | 3 => rfl
@[simp] theorem State.setArg_res (s : State) (j : Fin 4) (v : Word) : (s.setArg j v).res = s.res := by
  match j with | 0 | 1 | 2 | 3 => rfl
@[simp] theorem State.setArg_status (s : State) (j : Fin 4) (v : Word) : (s.setArg j v).status = s.status := by
  match j with | 0 | 1 | 2 | 3 => rfl
@[simp] theorem State.setArg_cfgVariant (s : State) (j : Fin 4) (v : Word) :
    (s.setArg j v).cfgVariant = s.cfgVariant := by
  match j with | 0 | 1 | 2 | 3 => rfl
@[simp] theorem State.setArg_mem (s : State) (j : Fin 4) (v : Word) : (s.setArg j v).mem = s.mem := by
  match j with | 0 | 1 | 2 | 3 => rfl
@[simp] theorem State.setArg_platform (s : State) (j : Fin 4) (v : Word) : (s.setArg j v).platform = s.platform := by
  match j with | 0 | 1 | 2 | 3 => rfl
@[simp] theorem State.setArg_draws (s : State) (j : Fin 4) (v : Word) : (s.setArg j v).draws = s.draws := by
  match j with | 0 | 1 | 2 | 3 => rfl
@[simp] theorem State.setArg_argOwner (s : State) (j : Fin 4) (v : Word) : (s.setArg j v).argOwner = s.argOwner := by
  match j with | 0 | 1 | 2 | 3 => rfl
@[simp] theorem State.setArg_readData (s : State) (j : Fin 4) (v : Word) : (s.setArg j v).readData = s.readData := by
  match j with | 0 | 1 | 2 | 3 => rfl
@[simp] theorem State.setArg_pending (s : State) (j : Fin 4) (v : Word) : (s.setArg j v).pending = s.pending := by
  match j with | 0 | 1 | 2 | 3 => rfl

/-! ### Recording an error (R30, R237) -/

@[simp] theorem State.raise_err (s : State) (c : ErrCode) (j : Fin 4) : (s.raise c j).status.err = c := rfl
@[simp] theorem State.raise_fatal (s : State) (c : ErrCode) (j : Fin 4) :
    (s.raise c j).status.fatal = (s.status.fatal || c.isFatal) := rfl
@[simp] theorem State.raise_errArg (s : State) (c : ErrCode) (j : Fin 4) :
    (s.raise c j).status.errArg = if c.isFatal then j else 0 := rfl
@[simp] theorem State.raise_cmd (s : State) (c : ErrCode) (j : Fin 4) : (s.raise c j).cmd = s.cmd := rfl
@[simp] theorem State.raise_arg (s : State) (c : ErrCode) (j k : Fin 4) : (s.raise c j).arg k = s.arg k := rfl
@[simp] theorem State.raise_res (s : State) (c : ErrCode) (j : Fin 4) : (s.raise c j).res = s.res := rfl
@[simp] theorem State.raise_cfgVariant (s : State) (c : ErrCode) (j : Fin 4) :
    (s.raise c j).cfgVariant = s.cfgVariant := rfl
@[simp] theorem State.raise_mem (s : State) (c : ErrCode) (j : Fin 4) : (s.raise c j).mem = s.mem := rfl
@[simp] theorem State.raise_platform (s : State) (c : ErrCode) (j : Fin 4) : (s.raise c j).platform = s.platform := rfl
@[simp] theorem State.raise_draws (s : State) (c : ErrCode) (j : Fin 4) : (s.raise c j).draws = s.draws := rfl
@[simp] theorem State.raise_argOwner (s : State) (c : ErrCode) (j : Fin 4) : (s.raise c j).argOwner = s.argOwner := rfl
@[simp] theorem State.raise_readData (s : State) (c : ErrCode) (j : Fin 4) : (s.raise c j).readData = s.readData := rfl
@[simp] theorem State.raise_pending (s : State) (c : ErrCode) (j : Fin 4) : (s.raise c j).pending = s.pending := rfl

/-! ### A command that completes (R30, R86) -/

@[simp] theorem complete_status (m : ArgMap) (r : Result) (s : State) :
    (complete m r s).status = { err := .noError, fatal := s.status.fatal, errArg := 0 } := rfl
@[simp] theorem complete_res (m : ArgMap) (r : Result) (s : State) : (complete m r s).res = r.res := rfl
@[simp] theorem complete_mem (m : ArgMap) (r : Result) (s : State) : (complete m r s).mem =
    m.dests.foldl (fun mem j => writeWide mem (s.addr j) (r.dest j)) s.mem := rfl
@[simp] theorem complete_cmd (m : ArgMap) (r : Result) (s : State) : (complete m r s).cmd = s.cmd := rfl
@[simp] theorem complete_arg (m : ArgMap) (r : Result) (s : State) (j : Fin 4) : (complete m r s).arg j = s.arg j := rfl
@[simp] theorem complete_cfgVariant (m : ArgMap) (r : Result) (s : State) :
    (complete m r s).cfgVariant = s.cfgVariant := rfl
@[simp] theorem complete_platform (m : ArgMap) (r : Result) (s : State) : (complete m r s).platform = s.platform := rfl
@[simp] theorem complete_draws (m : ArgMap) (r : Result) (s : State) : (complete m r s).draws = s.draws := rfl
@[simp] theorem complete_argOwner (m : ArgMap) (r : Result) (s : State) : (complete m r s).argOwner = s.argOwner := rfl
@[simp] theorem complete_readData (m : ArgMap) (r : Result) (s : State) : (complete m r s).readData = s.readData := rfl
@[simp] theorem complete_pending (m : ArgMap) (r : Result) (s : State) : (complete m r s).pending = s.pending := rfl

/-! ### The CORE's reset (R260) -/

@[simp] theorem State.coreReset_cmd (s : State) : s.coreReset.cmd = 0 := rfl
@[simp] theorem State.coreReset_arg (s : State) (j : Fin 4) : s.coreReset.arg j = 0 := by
  match j with | 0 | 1 | 2 | 3 => rfl
@[simp] theorem State.coreReset_res (s : State) : s.coreReset.res = 0 := rfl
@[simp] theorem State.coreReset_status (s : State) : s.coreReset.status = Status.clear := rfl
@[simp] theorem State.coreReset_cfgVariant (s : State) : s.coreReset.cfgVariant = s.cfgVariant := rfl
@[simp] theorem State.coreReset_mem (s : State) : s.coreReset.mem = s.mem := rfl
@[simp] theorem State.coreReset_platform (s : State) : s.coreReset.platform = s.platform := rfl
@[simp] theorem State.coreReset_draws (s : State) : s.coreReset.draws = s.draws := rfl
@[simp] theorem State.coreReset_argOwner (s : State) : s.coreReset.argOwner = none := rfl
@[simp] theorem State.coreReset_readData (s : State) : s.coreReset.readData = s.readData := rfl
@[simp] theorem State.coreReset_pending (s : State) : s.coreReset.pending = s.pending := rfl

/-! ### Free bytes (R238): only memory and the draw counter change -/

/-- Freeing a byte changes nothing but memory and the counter. -/
theorem State.freeByteAt_eq (s : State) (a : Nat) :
    ∃ mem draws, s.freeByteAt a = { s with mem := mem, draws := draws } := by
  unfold State.freeByteAt
  split
  · exact ⟨_, _, rfl⟩
  · exact ⟨s.mem, s.draws, rfl⟩

theorem State.freeBytes_eq (s : State) (a n : Nat) :
    ∃ mem draws, s.freeBytes a n = { s with mem := mem, draws := draws } := by
  induction n with
  | zero => exact ⟨s.mem, s.draws, rfl⟩
  | succ n ih =>
    obtain ⟨mem, draws, h⟩ := ih
    obtain ⟨mem', draws', h'⟩ := (s.freeBytes a n).freeByteAt_eq (a + n)
    exact ⟨mem', draws', by rw [State.freeBytes, h', h]⟩

theorem State.freeDests_eq (s : State) (m : ArgMap) :
    ∃ mem draws, s.freeDests m = { s with mem := mem, draws := draws } := by
  have key : ∀ (l : List (Fin 4)) (s : State),
      ∃ mem draws, l.foldl (fun t j => t.freeBytes (t.addr j) 64) s = { s with mem := mem, draws := draws } := by
    intro l
    induction l with
    | nil => exact fun s => ⟨s.mem, s.draws, rfl⟩
    | cons j l ih =>
      intro s
      obtain ⟨mem, draws, h⟩ := s.freeBytes_eq (s.addr j) 64
      obtain ⟨mem', draws', h'⟩ := ih (s.freeBytes (s.addr j) 64)
      exact ⟨mem', draws', by rw [List.foldl_cons, h', h]⟩
  exact key _ s

section
variable (s : State) (m : ArgMap)

@[simp] theorem State.freeDests_cmd : (s.freeDests m).cmd = s.cmd := by
  obtain ⟨_, _, h⟩ := s.freeDests_eq m; rw [h]
@[simp] theorem State.freeDests_arg (j : Fin 4) : (s.freeDests m).arg j = s.arg j := by
  obtain ⟨_, _, h⟩ := s.freeDests_eq m
  rw [h]
  match j with | 0 | 1 | 2 | 3 => rfl
@[simp] theorem State.freeDests_res : (s.freeDests m).res = s.res := by
  obtain ⟨_, _, h⟩ := s.freeDests_eq m; rw [h]
@[simp] theorem State.freeDests_status : (s.freeDests m).status = s.status := by
  obtain ⟨_, _, h⟩ := s.freeDests_eq m; rw [h]
@[simp] theorem State.freeDests_cfgVariant : (s.freeDests m).cfgVariant = s.cfgVariant := by
  obtain ⟨_, _, h⟩ := s.freeDests_eq m; rw [h]
@[simp] theorem State.freeDests_platform : (s.freeDests m).platform = s.platform := by
  obtain ⟨_, _, h⟩ := s.freeDests_eq m; rw [h]
@[simp] theorem State.freeDests_argOwner : (s.freeDests m).argOwner = s.argOwner := by
  obtain ⟨_, _, h⟩ := s.freeDests_eq m; rw [h]
@[simp] theorem State.freeDests_readData : (s.freeDests m).readData = s.readData := by
  obtain ⟨_, _, h⟩ := s.freeDests_eq m; rw [h]
@[simp] theorem State.freeDests_pending : (s.freeDests m).pending = s.pending := by
  obtain ⟨_, _, h⟩ := s.freeDests_eq m; rw [h]

end

end Sys2Proof.Machine
end

