-- ==== Sys2Proof/Laws/Execute.lean ====
section
/-! SUPPORT. What `execute` can do, said once; every command is an instance of it. -/

namespace Sys2Proof.Machine

/-! ### The body of each command -/

/-- The body of each command, so that what holds of `execute` holds of every command. -/
def bodyOf : Instr → Snapshot → BodyOutcome
  | .zero => zeroBody
  | .copy => copyBody
  | .sets => setsBody
  | .cmp => cmpBody
  | .cmps => cmpsBody
  | .add => addBody
  | .adds => addsBody
  | .sub => subBody
  | .subs => subsBody
  | .and => andBody
  | .or => orBody
  | .xor => xorBody
  | .not => notBody
  | .shr => shrBody
  | .shl => shlBody
  | .msb => msbBody
  | .lsb => lsbBody
  | .mul => mulBody
  | .mullo => mulloBody
  | .div => divBody

/-- Every command is `execute` of its argument map and its body (R86). -/
theorem exec_eq_execute (i : Instr) (s : State) : exec i s = execute i.argMap (bodyOf i) s := by
  cases i <;> rfl

/-- A source buffer's value in the snapshot (R60). -/
theorem snapshot_wide (m : ArgMap) (s : State) (j : Fin 4) (h : m.kind j = .src) : (snapshot m s).wide j = s.wide j :=
  if_pos h

/-- A scalar operand in the snapshot (R83). -/
theorem snapshot_scalar (m : ArgMap) (s : State) (j : Fin 4) (h : m.kind j = .scalar) :
    (snapshot m s).scalar j = s.arg j :=
  if_pos h

/-- DIV's body on two source values (R202). -/
theorem divBody_eq (x : Snapshot) : divBody x =
    if x.wide 3 = 0 then .divideByZero else .two (quotient (x.wide 2) (x.wide 3)) (remainder (x.wide 2) (x.wide 3)) :=
  rfl

/-! ### Memory after the destinations are written or freed -/

theorem read_writes_outside (f : Fin 4 → Nat) (v : Fin 4 → Wide) (l : List (Fin 4)) (m : Memory) (x : Nat)
    (h : ∀ j ∈ l, ¬ (f j ≤ x ∧ x < f j + 64)) : (l.foldl (fun m j => writeWide m (f j) (v j)) m).read x = m.read x := by
  induction l generalizing m with
  | nil => rfl
  | cons j l ih =>
    rw [List.foldl_cons, ih _ fun k hk => h k (List.mem_cons_of_mem j hk), read_writeWide,
      if_neg (h j List.mem_cons_self)]

theorem wf_writes (f : Fin 4 → Nat) (v : Fin 4 → Wide) (l : List (Fin 4)) (m : Memory) (hm : m.wf) :
    (l.foldl (fun m j => writeWide m (f j) (v j)) m).wf := by
  induction l generalizing m with
  | nil => exact hm
  | cons j l ih => exact ih _ (wf_writeWide _ _ _ hm)

theorem mem_writes (f : Fin 4 → Nat) (v : Fin 4 → Wide) (l : List (Fin 4)) (m : Memory) (c : Host.Cell)
    (hc : c ∈ l.foldl (fun m j => writeWide m (f j) (v j)) m) : c ∈ m ∨ ∃ j ∈ l, f j ≤ c.1 ∧ c.1 < f j + 64 := by
  induction l generalizing m with
  | nil => exact .inl hc
  | cons j l ih =>
    rcases ih _ hc with h | ⟨k, hk, h⟩
    · rcases mem_writeWide _ _ _ _ h with h | h
      · exact .inl h
      · exact .inr ⟨j, List.mem_cons_self, h⟩
    · exact .inr ⟨k, List.mem_cons_of_mem j hk, h⟩

/-- Memory outside a completed command's destinations is unchanged (R61). -/
theorem complete_read_outside (m : ArgMap) (r : Result) (s : State) (x : Nat) (h : ∀ j ∈ m.dests, ¬ InBuffer s j x) :
    (complete m r s).mem.read x = s.mem.read x :=
  read_writes_outside _ _ _ _ _ h

/-- Reading a byte after one byte was freed: only an admitted byte at that address can differ (R238). -/
theorem read_freeByteAt (s : State) (a x : Nat) (h : x = a → ¬ ByteAdmitted s.platform a) :
    (s.freeByteAt a).mem.read x = s.mem.read x := by
  unfold State.freeByteAt
  split
  · rename_i hb
    rw [Memory.read_write, if_neg fun hx => h hx (by simpa [ByteAdmitted] using hb)]
  · rfl

/-- Reading a byte after a range was freed (R238). -/
theorem read_freeBytes (s : State) (a n x : Nat) (h : a ≤ x → x < a + n → ¬ ByteAdmitted s.platform x) :
    (s.freeBytes a n).mem.read x = s.mem.read x := by
  induction n with
  | zero => rfl
  | succ n ih =>
    rw [State.freeBytes, read_freeByteAt, ih fun h₁ h₂ => h h₁ (by omega)]
    intro hx
    obtain ⟨_, _, e⟩ := s.freeBytes_eq a n
    rw [e]
    exact hx ▸ h (by omega) (by omega)

/-- Reading a byte after a command's destinations were freed: only an admitted byte of one of them can differ
(R238, R239, R262). -/
theorem read_freeDests (s : State) (m : ArgMap) (x : Nat)
    (h : ∀ j ∈ m.dests, InBuffer s j x → ¬ ByteAdmitted s.platform x) :
    (s.freeDests m).mem.read x = s.mem.read x := by
  have key : ∀ (l : List (Fin 4)) (t : State), t.platform = s.platform → (∀ j, t.addr j = s.addr j) →
      (∀ j ∈ l, InBuffer s j x → ¬ ByteAdmitted s.platform x) →
      (l.foldl (fun t j => t.freeBytes (t.addr j) 64) t).mem.read x = t.mem.read x := by
    intro l
    induction l with
    | nil => exact fun t _ _ _ => rfl
    | cons j l ih =>
      intro t hp ha hl
      obtain ⟨_, _, e⟩ := t.freeBytes_eq (t.addr j) 64
      rw [List.foldl_cons, ih _ (by rw [e]; exact hp)
        (fun k => by
          rw [e, ← ha k]
          match k with | 0 | 1 | 2 | 3 => rfl)
        fun k hk => hl k (List.mem_cons_of_mem j hk)]
      exact read_freeBytes _ _ _ _ fun h₁ h₂ =>
        hp ▸ hl j List.mem_cons_self ⟨by rw [← ha j]; exact h₁, by rw [← ha j]; exact h₂⟩
  exact key _ s rfl (fun _ => rfl) h

/-- Freeing a range keeps the canonical form and lists only bytes of the memory array. -/
theorem freeBytes_keeps (s : State) (a n : Nat) (hw : s.mem.wf) (hr : ∀ c ∈ s.mem, c.1 < 2 ^ s.platform.addrWidth) :
    (s.freeBytes a n).mem.wf ∧ ∀ c ∈ (s.freeBytes a n).mem, c.1 < 2 ^ s.platform.addrWidth := by
  induction n with
  | zero => exact ⟨hw, hr⟩
  | succ n ih =>
    obtain ⟨_, _, e⟩ := s.freeBytes_eq a n
    have hp : (s.freeBytes a n).platform = s.platform := by rw [e]
    rw [State.freeBytes, State.freeByteAt]
    split
    · rename_i hb
      refine ⟨Memory.wf_write _ _ _ ih.1, fun c hc => ?_⟩
      rcases Memory.mem_write _ _ _ _ hc with h | h
      · exact ih.2 c h
      · rw [hp] at hb
        simp only [inMemory, Bool.and_eq_true, decide_eq_true_eq] at hb
        omega
    · exact ih

/-- Freeing a command's destinations keeps the canonical form and lists only bytes of the memory array. -/
theorem freeDests_keeps (s : State) (m : ArgMap) (hw : s.mem.wf) (hr : ∀ c ∈ s.mem, c.1 < 2 ^ s.platform.addrWidth) :
    (s.freeDests m).mem.wf ∧ ∀ c ∈ (s.freeDests m).mem, c.1 < 2 ^ s.platform.addrWidth := by
  have key : ∀ (l : List (Fin 4)) (t : State), t.platform = s.platform → t.mem.wf →
      (∀ c ∈ t.mem, c.1 < 2 ^ s.platform.addrWidth) →
      (l.foldl (fun t j => t.freeBytes (t.addr j) 64) t).mem.wf ∧
        ∀ c ∈ (l.foldl (fun t j => t.freeBytes (t.addr j) 64) t).mem, c.1 < 2 ^ s.platform.addrWidth := by
    intro l
    induction l with
    | nil => exact fun t _ hw hr => ⟨hw, hr⟩
    | cons j l ih =>
      intro t hp hw hr
      obtain ⟨_, _, e⟩ := t.freeBytes_eq (t.addr j) 64
      have h := freeBytes_keeps t (t.addr j) 64 hw (by rw [hp]; exact hr)
      rw [hp] at h
      rw [List.foldl_cons]
      exact ih _ (by rw [e]; exact hp) h.1 h.2
  exact key _ s rfl hw hr

/-! ### Free bytes: each admitted byte is a draw of its own (R238) -/

/-- What a run of freeing has drawn so far: the platform stays, the counter only rises, and the admitted bytes among the
addresses freed hold draws. -/
structure Freed (s t : State) (d : Nat → Prop) : Prop where
  platform : t.platform = s.platform
  draws : s.draws ≤ t.draws
  drawn : DrawnIn s t d

theorem Freed.refl (s : State) : Freed s s fun _ => False :=
  ⟨rfl, Nat.le_refl _, fun _ => 0, fun _ h => h.elim, fun _ _ h => h.elim⟩

/-- A smaller set of addresses. -/
theorem Freed.mono {s t : State} {d e : Nat → Prop} (h : Freed s t d) (he : ∀ a, e a → d a) : Freed s t e := by
  obtain ⟨n, h₁, h₂⟩ := h.drawn
  exact ⟨h.platform, h.draws, n, fun a ha => h₁ a (he a ha), fun a b ha hb => h₂ a b (he a ha) (he b hb)⟩

/-- Freeing one more byte. -/
theorem Freed.byte {s t : State} {d : Nat → Prop} (h : Freed s t d) (x : Nat) :
    Freed s (t.freeByteAt x) fun a => d a ∨ a = x := by
  obtain ⟨n, h₁, h₂⟩ := h.drawn
  have hp := h.platform
  have hd := h.draws
  unfold State.freeByteAt
  split
  · refine ⟨hp, Nat.le_succ_of_le hd, fun a => if a = x then t.draws else n a, fun a ha hb => ?_, fun a b ha hb hba hbb => ?_⟩
    · by_cases hx : a = x
      · subst hx
        simp [Memory.read_write, hd]
      · obtain ⟨h₃, h₄, h₅⟩ := h₁ a (ha.resolve_right hx) hb
        simp only [hx, if_false, Memory.read_write]
        exact ⟨h₃, Nat.lt_succ_of_lt h₄, h₅⟩
    · by_cases hxa : a = x <;> by_cases hxb : b = x <;> simp only [hxa, hxb, if_true, if_false]
      · exact fun _ => trivial
      · have := (h₁ b (hb.resolve_right hxb) hbb).2.1
        intro e
        omega
      · have := (h₁ a (ha.resolve_right hxa) hba).2.1
        intro e
        omega
      · exact h₂ a b (ha.resolve_right hxa) (hb.resolve_right hxb) hba hbb
  · rename_i hn
    have hx : ∀ a, d a ∨ a = x → ByteAdmitted s.platform a → d a := fun a ha hb =>
      ha.resolve_right fun e => hn (by rw [hp]; subst e; simpa [ByteAdmitted] using hb)
    exact ⟨hp, hd, n, fun a ha hb => h₁ a (hx a ha hb) hb,
      fun a b ha hb hba hbb => h₂ a b (hx a ha hba) (hx b hb hbb) hba hbb⟩

/-- Freeing a range. -/
theorem Freed.bytes {s t : State} {d : Nat → Prop} (h : Freed s t d) (x n : Nat) :
    Freed s (t.freeBytes x n) fun a => d a ∨ (x ≤ a ∧ a < x + n) := by
  induction n with
  | zero => exact h.mono fun a ha => ha.resolve_right (by omega)
  | succ n ih =>
    refine (ih.byte (x + n)).mono ?_
    rintro a (h | h)
    · exact .inl (.inl h)
    · by_cases hx : a = x + n
      · exact .inr hx
      · exact .inl (.inr (by omega))

/-- Freeing a command's destinations: every admitted byte of them holds a draw of its own (R238, R239, R262). -/
theorem drawn_freeDests (s : State) (m : ArgMap) : DrawnIn s (s.freeDests m) (InBuffers s m.dests) := by
  have key : ∀ (l : List (Fin 4)) (t : State) (d : Nat → Prop), Freed s t d → (∀ j, t.addr j = s.addr j) →
      Freed s (l.foldl (fun t j => t.freeBytes (t.addr j) 64) t) fun a => d a ∨ InBuffers s l a := by
    intro l
    induction l with
    | nil => exact fun t d h _ => h.mono fun a ha => ha.resolve_right fun ⟨_, hj, _⟩ => nomatch hj
    | cons j l ih =>
      intro t d h ha
      rw [List.foldl_cons]
      refine (ih _ _ (h.bytes (t.addr j) 64) fun k => ?_).mono ?_
      · obtain ⟨_, _, e⟩ := t.freeBytes_eq (t.addr j) 64
        rw [e, ← ha k]
        match k with | 0 | 1 | 2 | 3 => rfl
      · rintro a (h | ⟨k, hk, hb⟩)
        · exact .inl (.inl h)
        · rcases List.mem_cons.1 hk with rfl | hk
          · exact .inl (.inr (by rw [ha k]; exact hb))
          · exact .inr ⟨k, hk, hb⟩
  exact ((key m.dests s _ (Freed.refl s) fun _ => rfl).mono fun a ha => .inr ha).drawn

/-! ### The checks -/

theorem misaligned_iff (s : State) (j : Fin 4) :
    s.misaligned j = true ↔ s.cfgVariant = .vector ∧ s.addr j % 64 ≠ 0 := by
  simp [State.misaligned]

/-- No buffer fails a check exactly when all are ready (R56, R59). -/
theorem ready_iff (m : ArgMap) (s : State) :
    BuffersReady s m.buffers ↔ firstMisaligned m s = none ∧ firstUnadmitted m s = none := by
  simp only [BuffersReady, firstMisaligned, firstUnadmitted, Option.map_eq_none_iff, List.find?_eq_none, State.unadmitted,
    misaligned_iff, Bool.not_eq_true', Bool.not_eq_false]
  constructor
  · intro h
    exact ⟨fun b hb hm => hm.2 ((h b hb).1 hm.1), fun b hb => (h b hb).2⟩
  · rintro ⟨h₁, h₂⟩ b hb
    exact ⟨fun hv => by
      by_contra hm
      exact h₁ b hb ⟨hv, hm⟩, h₂ b hb⟩

/-- A command whose buffers are ready is its body on the snapshot (R86). -/
theorem execute_ready (m : ArgMap) (body : Snapshot → BodyOutcome) (s : State) (h : BuffersReady s m.buffers) :
    execute m body s =
      match body (snapshot m s) with
      | .ok r => .next (complete m r s)
      | .divideByZero => .next (s.raise .divideByZero 0) := by
  obtain ⟨h₁, h₂⟩ := (ready_iff m s).1 h
  simp only [execute, h₁, h₂] <;> rfl

/-- Everything `execute` can do (R86): it always answers a next state, of one of four kinds, tried in this order (R244). -/
theorem execute_cases (m : ArgMap) (body : Snapshot → BodyOutcome) (s : State) :
    (∃ j, firstMisaligned m s = some j ∧ execute m body s = .next (s.raiseFatal .alignment m j)) ∨
    (∃ j, firstMisaligned m s = none ∧ firstUnadmitted m s = some j ∧
      execute m body s = .next (s.raiseFatal .busError m j)) ∨
    (BuffersReady s m.buffers ∧ body (snapshot m s) = .divideByZero ∧
      execute m body s = .next (s.raise .divideByZero 0)) ∨
    (∃ r, BuffersReady s m.buffers ∧ body (snapshot m s) = .ok r ∧ execute m body s = .next (complete m r s)) := by
  rw [ready_iff]
  unfold execute
  split
  · rename_i j hj
    exact .inl ⟨j, hj, rfl⟩
  · rename_i hn
    split
    · rename_i j hj
      exact .inr (.inl ⟨j, hn, hj, rfl⟩)
    · rename_i hn'
      split
      · rename_i r hr
        exact .inr (.inr (.inr ⟨r, ⟨hn, hn'⟩, hr, rfl⟩))
      · rename_i hr
        exact .inr (.inr (.inl ⟨⟨hn, hn'⟩, hr, rfl⟩))

/-- The ARG a check reports is one of the command's buffers, and it fails the check (R238). -/
theorem firstMisaligned_some (m : ArgMap) (s : State) (j : Fin 4) (h : firstMisaligned m s = some j) :
    s.misaligned j = true ∧ ∃ k, (j, k) ∈ m.buffers := by
  simp only [firstMisaligned, Option.map_eq_some_iff] at h
  obtain ⟨b, hb, rfl⟩ := h
  exact ⟨List.find?_some (p := fun b : Fin 4 × AccessKind => s.misaligned b.1) hb, b.2, List.mem_of_find?_eq_some hb⟩

/-- The ARG a check reports is one of the command's buffers, and it fails the check (R239). -/
theorem firstUnadmitted_some (m : ArgMap) (s : State) (j : Fin 4) (h : firstUnadmitted m s = some j) :
    ∃ k, (j, k) ∈ m.buffers ∧ s.unadmitted (j, k) = true := by
  simp only [firstUnadmitted, Option.map_eq_some_iff] at h
  obtain ⟨b, hb, rfl⟩ := h
  exact ⟨b.2, List.mem_of_find?_eq_some hb, List.find?_some (p := fun b : Fin 4 × AccessKind => s.unadmitted b) hb⟩

/-- The destinations are the buffers of kind W. -/
theorem mem_dests (m : ArgMap) (j : Fin 4) (h : j ∈ m.dests) : (j, AccessKind.write) ∈ m.buffers := by
  simp only [ArgMap.dests, List.mem_filter, decide_eq_true_eq] at h
  simp only [ArgMap.buffers, List.mem_filterMap]
  exact ⟨j, h.1, by simp [h.2, ArgKind.access]⟩

/-- An admitted buffer is memory (R59). -/
theorem admitted_inMemory (p : Platform) (a : Nat) (k : AccessKind) (h : admitted p a k = true) :
    a + 64 ≤ 2 ^ p.addrWidth := by
  simp only [admitted, inMemory, Bool.and_eq_true, decide_eq_true_eq] at h
  exact h.1

/-! ### Frames -/

/-- Recording an error changes only STATUS. -/
theorem raise_keepsRest (s : State) (c : ErrCode) (j : Fin 4) : KeepsRest s (s.raise c j) :=
  ⟨rfl, rfl, rfl, rfl, rfl, rfl, rfl, rfl, rfl, rfl⟩

/-- Completing changes only memory, RES and STATUS. -/
theorem complete_keepsRest (m : ArgMap) (r : Result) (s : State) : KeepsRest s (complete m r s) :=
  ⟨rfl, rfl, rfl, rfl, rfl, rfl, rfl, rfl, rfl, rfl⟩

/-- A fatal error changes only STATUS, memory and the draw counter. -/
theorem raiseFatal_keepsRest (s : State) (c : ErrCode) (m : ArgMap) (j : Fin 4) : KeepsRest s (s.raiseFatal c m j) := by
  obtain ⟨_, _, e⟩ := s.freeDests_eq m
  unfold State.raiseFatal
  rw [e]
  exact ⟨rfl, rfl, rfl, rfl, rfl, rfl, rfl, rfl, rfl, rfl⟩

/-- A command whose buffers are ready and whose body answers values completes (R86). -/
theorem completes_of_ready (i : Instr) (s : State) (post : State → Prop) (r : Result)
    (h : BuffersReady s i.argMap.buffers) (hb : bodyOf i (snapshot i.argMap s) = .ok r)
    (hp : post (complete i.argMap r s)) : Completes i s i.argMap.dests post :=
  ⟨complete i.argMap r s, by rw [exec_eq_execute, execute_ready _ _ _ h, hb], rfl, complete_keepsRest _ _ _, rfl,
    fun _ ha => complete_read_outside _ _ _ _ ha, hp⟩

@[simp] theorem Result.dest_zero (r : Result) : r.dest 0 = r.dest0 := rfl
@[simp] theorem Result.dest_one (r : Result) : r.dest 1 = r.dest1 := rfl

/-- The one destination of a completed command holds the body's value. -/
theorem wide_complete_one (m : ArgMap) (r : Result) (s : State) (h : m.dests = [0]) :
    (complete m r s).wide 0 = r.dest0 := by
  have : (complete m r s).mem = writeWide s.mem (s.addr 0) r.dest0 := by
    rw [complete_mem, h, List.foldl_cons, List.foldl_nil, Result.dest_zero]
  rw [State.wide, this]
  exact readWide_writeWide_same _ _ _

/-- The memory after two destinations are written, the second last (R62). -/
theorem mem_complete_two (m : ArgMap) (r : Result) (s : State) (h : m.dests = [0, 1]) :
    (complete m r s).mem = writeWide (writeWide s.mem (s.addr 0) r.dest0) (s.addr 1) r.dest1 := by
  rw [complete_mem, h, List.foldl_cons, List.foldl_cons, List.foldl_nil, Result.dest_zero, Result.dest_one]

end Sys2Proof.Machine
end

