-- ==== Sys2Proof/Laws/PerInstr.lean ====
section
/-! SUPPORT. What holds of every command as syntax: its word is legal (R84), and its operands fill the ARGs from ARG0 upward,
destinations first (R85). -/

/-- A command's word is legal, its unused ARGs come last, and its destinations come first. -/
def Sys2Proof.Laws.ArgsInOrder.Statement (i : Sys2Proof.Instr) : Prop :=
  Sys2Proof.WordWellFormed (Sys2Proof.encode i) ∧
    (∀ j k : Fin 4, j < k → i.argMap.kind k ≠ .unused → i.argMap.kind j ≠ .unused) ∧
    ∀ j k : Fin 4, j < k → i.argMap.kind k = .dest → i.argMap.kind j = .dest

namespace Sys2Proof.Laws

theorem ArgsInOrder.zero : ArgsInOrder.Statement .zero := by unfold ArgsInOrder.Statement; decide
theorem ArgsInOrder.copy : ArgsInOrder.Statement .copy := by unfold ArgsInOrder.Statement; decide
theorem ArgsInOrder.sets : ArgsInOrder.Statement .sets := by unfold ArgsInOrder.Statement; decide
theorem ArgsInOrder.cmp : ArgsInOrder.Statement .cmp := by unfold ArgsInOrder.Statement; decide
theorem ArgsInOrder.cmps : ArgsInOrder.Statement .cmps := by unfold ArgsInOrder.Statement; decide
theorem ArgsInOrder.add : ArgsInOrder.Statement .add := by unfold ArgsInOrder.Statement; decide
theorem ArgsInOrder.adds : ArgsInOrder.Statement .adds := by unfold ArgsInOrder.Statement; decide
theorem ArgsInOrder.sub : ArgsInOrder.Statement .sub := by unfold ArgsInOrder.Statement; decide
theorem ArgsInOrder.subs : ArgsInOrder.Statement .subs := by unfold ArgsInOrder.Statement; decide
theorem ArgsInOrder.and : ArgsInOrder.Statement .and := by unfold ArgsInOrder.Statement; decide
theorem ArgsInOrder.or : ArgsInOrder.Statement .or := by unfold ArgsInOrder.Statement; decide
theorem ArgsInOrder.xor : ArgsInOrder.Statement .xor := by unfold ArgsInOrder.Statement; decide
theorem ArgsInOrder.not : ArgsInOrder.Statement .not := by unfold ArgsInOrder.Statement; decide
theorem ArgsInOrder.shr : ArgsInOrder.Statement .shr := by unfold ArgsInOrder.Statement; decide
theorem ArgsInOrder.shl : ArgsInOrder.Statement .shl := by unfold ArgsInOrder.Statement; decide
theorem ArgsInOrder.msb : ArgsInOrder.Statement .msb := by unfold ArgsInOrder.Statement; decide
theorem ArgsInOrder.lsb : ArgsInOrder.Statement .lsb := by unfold ArgsInOrder.Statement; decide
theorem ArgsInOrder.mul : ArgsInOrder.Statement .mul := by unfold ArgsInOrder.Statement; decide
theorem ArgsInOrder.mullo : ArgsInOrder.Statement .mullo := by unfold ArgsInOrder.Statement; decide
theorem ArgsInOrder.div : ArgsInOrder.Statement .div := by unfold ArgsInOrder.Statement; decide

end Sys2Proof.Laws
end

