-- ==== Sys2Proof/Laws/Step.lean ====
section
/-! SUPPORT. What a step does with each event: which register or which memory a host access reaches. -/

namespace Sys2Proof.Machine

/-- With no event pending nothing changes. -/
theorem step_nil (s : State) (h : s.pending = []) : step s = .next s := by
  simp [step, runPending, h]

/-- With an event pending, a step takes it and runs it. -/
theorem step_cons (s : State) (e : Event) (rest : List Event) (h : s.pending = e :: rest) :
    step s = runEvent e { s with pending := rest } := by
  simp [step, runPending, h]

/-- The offsets of the window are multiples of 8 below 64 (R22). -/
theorem regAt_offset (off : Nat) (r : Reg) (h : regAt off = some r) : off % 8 = 0 ∧ off < 64 := by
  unfold regAt at h
  split at h <;> first | exact ⟨by decide, by decide⟩ | exact absurd h (by simp)

/-- An aligned 64-bit access at a window offset reaches the register there (R22, R23). -/
theorem hostAccess_register (s : State) (off : Nat) (r : Reg) (f : Reg → Out) (g : State → Out)
    (h : regAt off = some r) : hostAccess s (s.platform.coreBase + off) 8 f g = f r := by
  obtain ⟨h₁, h₂⟩ := regAt_offset off r h
  have ho : overlapsWindow s.platform (s.platform.coreBase + off) 8 = true := by
    simp only [overlapsWindow, Bool.and_eq_true, decide_eq_true_eq]
    omega
  have hr : windowRegister s.platform (s.platform.coreBase + off) 8 = some r := by
    rw [windowRegister, if_pos ⟨rfl, by omega⟩, Nat.add_sub_cancel_left, h]
  simp [hostAccess, ho, hr]

/-- An access outside the window goes to the memory (R34). -/
theorem hostAccess_memory (s : State) (a n : Nat) (f : Reg → Out) (g : State → Out)
    (hw : overlapsWindow s.platform a n = false) (hm : inMemory s.platform a n = true) : hostAccess s a n f g = g s := by
  simp [hostAccess, memoryAccess, hw, hm]

/-- The host's write of eight bytes to a register (R22, R51). -/
theorem runEvent_write_data (s : State) (thread off : Nat) (r : Reg) (data : List Byte) (during : List Concurrent)
    (h : regAt off = some r) (hl : data.length = 8) :
    runEvent (.write thread (s.platform.coreBase + off) data during) s =
      writeRegister thread r (BitVec.ofNat 64 (ofBytesLE data)) during s := by
  rw [runEvent, hl, hostAccess_register s off r _ _ h]

/-- The host's 64-bit write of a value to a register (R22, R51). -/
theorem runEvent_write_register (s : State) (thread off : Nat) (r : Reg) (v : Word) (during : List Concurrent)
    (h : regAt off = some r) :
    runEvent (.write thread (s.platform.coreBase + off) (bytesLE 8 v.toNat) during) s =
      writeRegister thread r v during s := by
  rw [runEvent_write_data s thread off r _ during h (length_bytesLE 8 _), ofNat_ofBytesLE_bytesLE]

/-- The host's 64-bit read of a register (R22, R51). -/
theorem runEvent_read_register (s : State) (off : Nat) (r : Reg) (h : regAt off = some r) :
    runEvent (.read (s.platform.coreBase + off) 8) s = .next { s with readData := bytesLE 8 (s.readReg r).toNat } := by
  rw [runEvent, hostAccess_register s off r _ _ h]

/-- The step of a host write to a register. -/
theorem step_write_register (s : State) (thread off : Nat) (r : Reg) (v : Word) (during : List Concurrent)
    (rest : List Event) (h : regAt off = some r)
    (hp : s.pending = .write thread (s.platform.coreBase + off) (bytesLE 8 v.toNat) during :: rest) :
    step s = writeRegister thread r v during { s with pending := rest } :=
  (step_cons _ _ _ hp).trans (runEvent_write_register { s with pending := rest } thread off r v during h)

/-- The step of a host read of a register. -/
theorem step_read_register (s : State) (off : Nat) (r : Reg) (rest : List Event) (h : regAt off = some r)
    (hp : s.pending = .read (s.platform.coreBase + off) 8 :: rest) :
    step s = .next { s with pending := rest, readData := bytesLE 8 (s.readReg r).toNat } :=
  (step_cons _ _ _ hp).trans (runEvent_read_register { s with pending := rest } off r h)

/-- The step of a host store to memory. -/
theorem step_write_memory (s : State) (thread a : Nat) (data : List Byte) (during : List Concurrent) (rest : List Event)
    (hw : overlapsWindow s.platform a data.length = false) (hm : inMemory s.platform a data.length = true)
    (hp : s.pending = .write thread a data during :: rest) :
    step s = runAll during { s with pending := rest, mem := s.mem.store a data } :=
  (step_cons _ _ _ hp).trans (hostAccess_memory { s with pending := rest } a data.length _ _ hw hm)

/-- The step of a host load from memory. -/
theorem step_read_memory (s : State) (a n : Nat) (rest : List Event) (hw : overlapsWindow s.platform a n = false)
    (hm : inMemory s.platform a n = true) (hp : s.pending = .read a n :: rest) :
    step s = .next { s with pending := rest, readData := s.mem.bytes a n } :=
  (step_cons _ _ _ hp).trans (hostAccess_memory { s with pending := rest } a n _ _ hw hm)

/-- The step of an accepted CMD write (R24, R30). -/
theorem step_cmd_write (s : State) (w : Word) (during : List Concurrent) (rest : List Event)
    (h : CmdWriteNext s w during rest) :
    step s = writeCmd w during { s with pending := rest, argOwner := none } := by
  obtain ⟨⟨thread, hp, ho⟩, _⟩ := h
  rw [step_write_register s thread 0 .cmd w during rest rfl (by rwa [Nat.add_zero])]
  exact if_pos ho

/-- A chain of outcomes that ends in a next state passed through one. -/
theorem thenDo_next (o : Out) (f : State → Out) (t : State) (h : thenDo o f = .next t) :
    ∃ u, o = .next u ∧ f u = .next t := by
  cases o with
  | next u => exact ⟨u, rfl, h⟩
  | fault r => exact absurd h (by simp [thenDo])
  | refused r => exact absurd h (by simp [thenDo])

@[simp] theorem thenDo_of_next (s : State) (f : State → Out) : thenDo (.next s) f = f s := rfl

/-- What holds of a state, and is kept by each thing that happens beside a command, holds after all of them. -/
theorem runAll_keeps (P : State → Prop) (cs : List Concurrent)
    (hc : ∀ c ∈ cs, ∀ s t, P s → runConcurrent c s = .next t → P t) (s t : State) (hs : P s)
    (h : runAll cs s = .next t) : P t := by
  induction cs generalizing s with
  | nil =>
    cases h
    exact hs
  | cons c cs ih =>
    obtain ⟨u, hu, h⟩ := thenDo_next _ _ _ h
    exact ih (fun d hd => hc d (List.mem_cons_of_mem c hd)) u (hc c List.mem_cons_self s u hs hu) h

/-- An accepted write of a word to CMD with no company (R24, R30). -/
theorem writeCmd_accepted (v : Word) (s : State) (hf : s.status.fatal = false) (i : Instr) (hd : decode v = .ok i) :
    writeCmd v [] s = exec i { s with cmd := v } := by
  have ht : ∀ o : Out, thenDo o (runAll []) = o := by
    intro o
    cases o <;> rfl
  simp [writeCmd, hf, hd, runDuring, ht]

end Sys2Proof.Machine
end

