-- ==== Sys2Proof/Laws/Text.lean ====
section
/-! SUPPORT. What the readers of assembler text do with blanks, separators and digits (R87). -/

namespace Sys2Proof.Machine

/-- A text with no blank at either end is left as it is. -/
theorem trimBlanks_eq (cs : List Char) (h : ∀ c ∈ cs.head?, isBlank c = false) (h' : ∀ c ∈ cs.getLast?, isBlank c = false) :
    trimBlanks cs = cs := by
  have key : ∀ l : List Char, (∀ c ∈ l.head?, isBlank c = false) → l.dropWhile isBlank = l := by
    intro l hl
    cases l with
    | nil => rfl
    | cons c l => simp [hl c (by simp)]
  rw [trimBlanks, key cs h, key cs.reverse (by simpa using h'), List.reverse_reverse]

/-- A blank in front is dropped. -/
theorem trimBlanks_blank (cs : List Char) : trimBlanks (' ' :: cs) = trimBlanks cs := rfl

/-- The first word of a text, up to a character that ends it. -/
theorem takeWhile_word (p : Char → Bool) (w : List Char) (c : Char) (rest : List Char) (h : ∀ x ∈ w, p x = true)
    (hc : p c = false) : (w ++ c :: rest).takeWhile p = w := by
  induction w with
  | nil => simp [hc]
  | cons x w ih => simp [h x (by simp), ih fun y hy => h y (List.mem_cons_of_mem x hy)]

/-- A text without the separator is one piece. -/
theorem splitAtChar_single (sep : Char) (w : List Char) (h : sep ∉ w) : splitAtChar sep w = [w] := by
  induction w with
  | nil => rfl
  | cons c w ih =>
    rw [List.mem_cons, not_or] at h
    simp [splitAtChar, ih h.2, Ne.symm h.1]

/-- The first piece of a text ends at the first separator. -/
theorem splitAtChar_append (sep : Char) (w rest : List Char) (h : sep ∉ w) :
    splitAtChar sep (w ++ sep :: rest) = w :: splitAtChar sep rest := by
  have hne : ∀ l, splitAtChar sep l ≠ [] := by
    intro l
    cases l with
    | nil => simp [splitAtChar]
    | cons c l =>
      simp only [splitAtChar]
      split
      · simp
      · split <;> simp
  induction w with
  | nil =>
    simp only [List.nil_append, splitAtChar]
    split
    · rename_i e
      exact absurd e (hne _)
    · rename_i e
      simp [e]
  | cons c w ih =>
    rw [List.mem_cons, not_or] at h
    simp [splitAtChar, ih h.2, Ne.symm h.1]

/-- A character that is read as a digit, or that groups digits, is no blank. -/
theorem not_blank_of_digits (base acc n : Nat) (cs : List Char) (h : numberOfDigits base acc cs = some n) :
    ∀ c ∈ cs, isBlank c = false := by
  induction cs generalizing acc with
  | nil => simp
  | cons c cs ih =>
    rw [numberOfDigits] at h
    split at h
    · rename_i hc
      subst hc
      exact fun x hx => (List.mem_cons.1 hx).elim (fun e => e ▸ by decide) (ih _ h x)
    · split at h
      · rename_i v hv
        refine fun x hx => (List.mem_cons.1 hx).elim (fun e => ?_) (ih _ h x)
        subst e
        cases hb : isBlank x with
        | false => rfl
        | true =>
          simp only [isBlank, Bool.or_eq_true, decide_eq_true_eq] at hb
          rcases hb with rfl | rfl <;> simp [digitValue] at hv
      · exact absurd h (by simp)

/-- A number has characters, none of them a blank. -/
theorem parseNumber_some (cs : List Char) (n : Nat) (h : parseNumber cs = some n) :
    cs ≠ [] ∧ ∀ c ∈ cs, isBlank c = false := by
  unfold parseNumber at h
  split at h
  · cases h
  · cases h
  · cases h
  · cases h
  · refine ⟨by simp, fun c hc => ?_⟩
    rcases List.mem_cons.1 hc with rfl | hc
    · decide
    · rcases List.mem_cons.1 hc with rfl | hc
      · decide
      · exact not_blank_of_digits _ _ _ _ h c hc
  · exact ⟨by assumption, not_blank_of_digits _ _ _ _ h⟩

/-- The text of an operand has no blank at either end. -/
theorem parseOperand_ends (names : List (List Char × Nat)) (cs : List Char) (o : LineOperand)
    (h : parseOperand names cs = some o) :
    cs ≠ [] ∧ (∀ c ∈ cs.head?, isBlank c = false) ∧ ∀ c ∈ cs.getLast?, isBlank c = false := by
  unfold parseOperand at h
  split at h
  · rename_i n
    rw [Option.map_eq_some_iff] at h
    obtain ⟨v, hv, _⟩ := h
    obtain ⟨h₁, h₂⟩ := parseNumber_some n v hv
    refine ⟨by simp, by simp [isBlank], fun c hc => h₂ c ?_⟩
    rw [Option.mem_def, List.getLast?_cons] at hc
    cases e : n.getLast? with
    | none => exact absurd (List.getLast?_eq_none_iff.1 e) h₁
    | some d =>
      rw [e] at hc
      obtain rfl : d = c := by simpa using hc
      exact List.mem_of_getLast? e
  · rename_i rest
    split at h
    · rename_i inner e
      have hr : rest = inner.reverse ++ [']'] := by rw [← List.reverse_reverse rest, e]; simp
      subst hr
      refine ⟨by simp, by simp [isBlank], ?_⟩
      rw [← List.cons_append, List.getLast?_concat]
      simp [isBlank]
    · cases h
  · cases h

/-- A digit of either base, as its character: its value, and what it is not. -/
theorem digitChar_value (base : Nat) (hb : base ∈ [10, 16]) (d : Fin base) :
    digitValue base (Nat.digitChar d.val) = some d.val ∧ Nat.digitChar d.val ≠ '_' ∧ Nat.digitChar d.val ≠ 'x' := by
  rcases List.mem_pair.1 hb with rfl | rfl <;> revert d <;> decide

/-- The digits of a base write the number of their positions. -/
theorem numberOfDigits_digits (base : Nat) (hb : base ∈ [10, 16]) (ds : List (Fin base)) (acc : Nat) :
    numberOfDigits base acc (ds.map fun d => Nat.digitChar d.val) = some (ds.foldl (fun n d => n * base + d.val) acc) := by
  induction ds generalizing acc with
  | nil => rfl
  | cons d ds ih =>
    obtain ⟨hv, hne, _⟩ := digitChar_value base hb d
    rw [List.map_cons, numberOfDigits, if_neg hne, hv]
    exact ih _

/-- The operand texts joined by commas read as the operands, with or without a blank in front; the joined text is not empty,
has no blank at an end and no semicolon. -/
theorem parseOperands_join (names : List (List Char × Nat)) (texts : List (List Char)) (ops : List LineOperand)
    (ht : texts ≠ [])
    (h : List.Forall₂ (fun text o => parseOperand names text = some o ∧ ',' ∉ text ∧ ';' ∉ text) texts ops) :
    let r := List.intercalate [',', ' '] texts
    ((∀ c ∈ r.head?, isBlank c = false) ∧ (∀ c ∈ r.getLast?, isBlank c = false) ∧ r ≠ [] ∧ ';' ∉ r) ∧
      (splitAtChar ',' r).mapM (fun o => parseOperand names (trimBlanks o)) = some ops ∧
      (splitAtChar ',' (' ' :: r)).mapM (fun o => parseOperand names (trimBlanks o)) = some ops := by
  induction texts generalizing ops with
  | nil => exact absurd rfl ht
  | cons t ts ih =>
    cases h with
    | cons h hs =>
      rename_i o os
      obtain ⟨hp, hc, hsm⟩ := h
      obtain ⟨hne, hh, hl⟩ := parseOperand_ends _ _ _ hp
      have htr := trimBlanks_eq t hh hl
      have hc' : ',' ∉ ' ' :: t := by simp [hc]
      cases ts with
      | nil =>
        cases hs
        have e : List.intercalate [',', ' '] [t] = t := by simp [List.intercalate, List.intersperse]
        dsimp only
        rw [e, splitAtChar_single _ _ hc, splitAtChar_single _ _ hc']
        exact ⟨⟨hh, hl, hne, hsm⟩, by simp [htr, hp], by simp [trimBlanks_blank, htr, hp]⟩
      | cons u us =>
        obtain ⟨⟨_, hl', hne', hsm'⟩, _, hops⟩ := ih os (by simp) hs
        have e : List.intercalate [',', ' '] (t :: u :: us) = t ++ ',' :: ' ' :: List.intercalate [',', ' '] (u :: us) := by
          simp [List.intercalate, List.intersperse]
        dsimp only
        rw [e, splitAtChar_append _ _ _ hc, ← List.cons_append, splitAtChar_append _ _ _ hc']
        generalize List.intercalate [',', ' '] (u :: us) = r at *
        refine ⟨⟨?_, ?_, by simp, by simp [hsm, hsm']⟩, ?_, ?_⟩
        · cases t with
          | nil => exact absurd rfl hne
          | cons a t => simpa using hh
        · rw [List.getLast?_append_of_ne_nil _ (by simp), List.getLast?_cons_cons]
          cases r with
          | nil => exact absurd rfl hne'
          | cons a r => rw [List.getLast?_cons_cons]; exact hl'
        · rw [List.mapM_cons, htr, hp, hops]; rfl
        · rw [List.mapM_cons, trimBlanks_blank, htr, hp, hops]; rfl

end Sys2Proof.Machine
end

