-- ==== Sys2Proof/Tests/Slice0.lean ====
section
/-! SUPPORT. The model's own tests. Every expected value comes from the spec: the encodings of 30_encoding.md and the vectors of
95_test_vectors.md, whose ids stand in the docstrings. The witnesses at the end meet the hypotheses of the
statements in Certificates/Slice0/Obligations.lean, one named theorem a statement. -/

namespace Sys2Proof.Tests

open Sys2Proof Sys2Proof.Machine

set_option Elab.async false

/-! ### Well-formedness -/

/-- A platform each of R9's bounds refuses, and one they admit. -/
theorem test_platform_wellFormed :
    ¬ Platform.WellFormed { addrWidth := 0, coreBase := 0, regions := [] } ∧
    ¬ Platform.WellFormed { addrWidth := 65, coreBase := 0, regions := [] } ∧
    ¬ Platform.WellFormed { addrWidth := 32, coreBase := 0x20, regions := [] } ∧
    Platform.WellFormed { addrWidth := 1, coreBase := 0x40, regions := [] } := by decide

/-- A word with a nonzero RSVD, words with an unassigned OPC, and a legal word (R84). -/
theorem test_word_wellFormed :
    ¬ WordWellFormed 0x110 ∧ ¬ WordWellFormed 0x06 ∧ ¬ WordWellFormed 0 ∧ WordWellFormed 0x10 := by decide

/-- Lines with too few operands, too many, one of the wrong kind and one out of range, and a legal line (R87). -/
theorem test_line_wellFormed :
    Line.WellFormed ⟨.sets, [.buffer 0x1000]⟩ = false ∧
    Line.WellFormed ⟨.zero, [.buffer 0x1000, .scalar 1]⟩ = false ∧
    Line.WellFormed ⟨.copy, [.buffer 0x1000, .scalar 1]⟩ = false ∧
    Line.WellFormed ⟨.sets, [.scalar 1, .scalar 1]⟩ = false ∧
    Line.WellFormed ⟨.sets, [.buffer 0x1000, .scalar (2 ^ 64)]⟩ = false ∧
    Line.WellFormed ⟨.sets, [.buffer (2 ^ 64), .scalar 1]⟩ = false ∧
    Line.WellFormed ⟨.sets, [.buffer 0x1000, .scalar 1]⟩ = true := by decide

/-! ### Decoding: every constructor by a word written out from R80 and R81 -/

theorem test_decode_primitives :
    decode 0x0000000000000001 = .ok .zero ∧ decode 0x0000000000000002 = .ok .copy ∧
    decode 0x0000000000000003 = .ok .sets ∧ decode 0x0000000000000004 = .ok .cmp ∧
    decode 0x0000000000000005 = .ok .cmps := by decide

theorem test_decode_additive :
    decode 0x0000000000000010 = .ok .add ∧ decode 0x0000000000000011 = .ok .adds ∧
    decode 0x0000000000000012 = .ok .sub ∧ decode 0x0000000000000013 = .ok .subs := by decide

theorem test_decode_logical :
    decode 0x0000000000000020 = .ok .and ∧ decode 0x0000000000000021 = .ok .or ∧
    decode 0x0000000000000022 = .ok .xor ∧ decode 0x0000000000000023 = .ok .not := by decide

theorem test_decode_shift :
    decode 0x0000000000000030 = .ok .shr ∧ decode 0x0000000000000031 = .ok .shl := by decide

theorem test_decode_bitScan :
    decode 0x0000000000000040 = .ok .msb ∧ decode 0x0000000000000041 = .ok .lsb := by decide

theorem test_decode_multiplicative :
    decode 0x0000000000000050 = .ok .mul ∧ decode 0x0000000000000051 = .ok .mullo ∧
    decode 0x0000000000000052 = .ok .div := by decide

/-- The words V8-1 to V8-4 and P5 are illegal; a word is the eight bytes of R51; seven bytes are no word. -/
theorem test_decode_rejects :
    (decode 0).toOption = none ∧ (decode 0x110).toOption = none ∧ (decode 0x06).toOption = none ∧
    (decode 0xFF).toOption = none ∧ (decode 0x100).toOption = none ∧
    (decode 0x8000000000000010).toOption = none ∧
    decodeBytes [0x31, 0, 0, 0, 0, 0, 0, 0, 0xAA] = .ok (.shl, [0xAA]) ∧
    (decodeBytes [0x31, 0, 0, 0, 0, 0, 0]).toOption = none := by decide

/-! ### Running a command -/

/-- The value with these limbs in index order. -/
def wideOf (ls : List Nat) : Wide := ofLimbs (ls.map (BitVec.ofNat 64))

/-- The all-ones limb. -/
def F : Nat := 0xFFFFFFFFFFFFFFFF

/-- The shift source S of 95_test_vectors.md section 0. -/
def S : List Nat := [0x0123456789ABCDEF, 0xFEDCBA9876543210, 0, 0, 0, 0, 0x8000000000000001, F]

/-- The value with limbs 1 to 8. -/
def oneToEight : List Nat := [1, 2, 3, 4, 5, 6, 7, 8]

/-- The platform of 95_test_vectors.md section 0 with these ARGs and buffers, and RES 5. -/
def machine (v : Variant) (args : List Nat) (bufs : List (Nat × List Nat)) : State :=
  { State.reset with
    cfgVariant := v
    arg0 := BitVec.ofNat 64 (args.getD 0 0)
    arg1 := BitVec.ofNat 64 (args.getD 1 0)
    arg2 := BitVec.ofNat 64 (args.getD 2 0)
    arg3 := BitVec.ofNat 64 (args.getD 3 0)
    res := 5
    mem := bufs.foldl (fun m b => writeWide m b.1 (wideOf b.2)) [] }

/-- What a step leaves: the limbs of these buffers, RES and STATUS. -/
def outcome (o : Out) (bufs : List Nat) : Option (List (List Nat) × Nat × Nat) :=
  match o with
  | .next t => some (bufs.map fun a => (limbs (readWide t.mem a)).map (·.toNat), t.res.toNat, t.status.word.toNat)
  | .fault _ => none
  | .refused _ => none

/-- The outcome of writing a command word to CMD. -/
def issue (w : Nat) (s : State) (bufs : List Nat) : Option (List (List Nat) × Nat × Nat) :=
  outcome (step (s.withFetchWord 64 w)) bufs

/-- V1-1. -/
theorem test_zero : issue 0x01 (machine .vector [0x1000] [(0x1000, oneToEight)]) [0x1000] =
    some ([[0, 0, 0, 0, 0, 0, 0, 0]], 0, 0) := by decide +kernel

/-- V8-12: the ARGs ZERO does not use are not checked. -/
theorem test_zero_unused : issue 0x01 (machine .vector [0x1000, 1, 3, 0xFFFFFFFF] [(0x1000, oneToEight)]) [0x1000] =
    some ([[0, 0, 0, 0, 0, 0, 0, 0]], 0, 0) := by decide +kernel

/-- V9-1: a partial overlap upward. -/
theorem test_copy_up : issue 0x02 (machine .scalar [0x1008, 0x1000] [(0x1000, oneToEight)]) [0x1008, 0x1000] =
    some ([oneToEight, [1, 1, 2, 3, 4, 5, 6, 7]], 0, 0) := by decide +kernel

/-- V9-2: a partial overlap downward. -/
theorem test_copy_down : issue 0x02 (machine .scalar [0x1000, 0x1008] [(0x1008, oneToEight)]) [0x1000, 0x1008] =
    some ([oneToEight, [2, 3, 4, 5, 6, 7, 8, 8]], 0, 0) := by decide +kernel

/-- V1-6: zero-extended. -/
theorem test_sets : issue 0x03 (machine .vector [0x1000, F] [(0x1000, oneToEight)]) [0x1000] =
    some ([[0, 0, 0, 0, 0, 0, 0, F]], 0, 0) := by decide +kernel

/-- V1-11: limbs are unsigned and limb 0 decides. -/
theorem test_cmp_greater : issue 0x04 (machine .vector [0x1000, 0x1040]
    [(0x1000, [0x8000000000000000, 0, 0, 0, 0, 0, 0, 0]), (0x1040, [0x7FFFFFFFFFFFFFFF, F, F, F, F, F, F, F])]) [] =
    some ([], 1, 0) := by decide +kernel

/-- V1-8. -/
theorem test_cmp_less : issue 0x04 (machine .vector [0x1000, 0x1040]
    [(0x1000, [0, 0, 0, 0, 0, 0, 0, 5]), (0x1040, [0, 0, 0, 0, 0, 0, 0, 7])]) [] = some ([], F, 0) := by decide +kernel

/-- V1-17: a nonzero upper limb beats any scalar. -/
theorem test_cmps_greater : issue 0x05 (machine .vector [0x1000, F] [(0x1000, [0, 0, 0, 0, 0, 0, 1, 0])]) [] =
    some ([], 1, 0) := by decide +kernel

/-- V1-19. -/
theorem test_cmps_less : issue 0x05 (machine .vector [0x1000, 1] []) [] = some ([], F, 0) := by decide +kernel

/-- V2-2: the carry through all limbs and out of limb 0. -/
theorem test_add_wraps : issue 0x10 (machine .vector [0x1080, 0x1000, 0x1040]
    [(0x1000, [F, F, F, F, F, F, F, F]), (0x1040, [0, 0, 0, 0, 0, 0, 0, 1])]) [0x1080] =
    some ([[0, 0, 0, 0, 0, 0, 0, 0]], 1, 0) := by decide +kernel

/-- V2-25: dest aliases both sources. -/
theorem test_add_in_place : issue 0x10 (machine .vector [0x1000, 0x1000, 0x1000]
    [(0x1000, [0, 0, 0, 0, 0, 0, 0, 3])]) [0x1000] = some ([[0, 0, 0, 0, 0, 0, 0, 6]], 0, 0) := by decide +kernel

/-- V2-10: the carry ripples up to limb 0 and stops. -/
theorem test_adds : issue 0x11 (machine .vector [0x1080, 0x1000, F] [(0x1000, [0, F, F, F, F, F, F, F])]) [0x1080] =
    some ([[1, 0, 0, 0, 0, 0, 0, 0xFFFFFFFFFFFFFFFE]], 0, 0) := by decide +kernel

/-- V2-18: underflow. -/
theorem test_sub_wraps : issue 0x12 (machine .vector [0x1080, 0x1000, 0x1040]
    [(0x1040, [F, F, F, F, F, F, F, F])]) [0x1080] = some ([[0, 0, 0, 0, 0, 0, 0, 1]], 1, 0) := by decide +kernel

/-- V2-16: a long borrow without underflow. -/
theorem test_sub_borrows : issue 0x12 (machine .vector [0x1080, 0x1000, 0x1040]
    [(0x1000, [0x8000000000000000, 0, 0, 0, 0, 0, 0, 0]), (0x1040, [0, 0, 0, 0, 0, 0, 0, 1])]) [0x1080] =
    some ([[0x7FFFFFFFFFFFFFFF, F, F, F, F, F, F, F]], 0, 0) := by decide +kernel

/-- V2-24: underflow by the largest scalar. -/
theorem test_subs_wraps : issue 0x13 (machine .vector [0x1080, 0x1000, F] []) [0x1080] =
    some ([[F, F, F, F, F, F, F, 1]], 1, 0) := by decide +kernel

/-- V9-4: in place. -/
theorem test_subs_in_place : issue 0x13 (machine .vector [0x1000, 0x1000, 7] [(0x1000, [0, 0, 0, 0, 0, 0, 0, 5])]) [0x1000] =
    some ([[F, F, F, F, F, F, F, 0xFFFFFFFFFFFFFFFE]], 1, 0) := by decide +kernel

/-- The operands of V3-1 to V3-3. -/
def logicMachine : State := machine .vector [0x1080, 0x1000, 0x1040]
  [(0x1000, [0xFF00, 0, 0, 0, 0, 0, 0, 0xF0F]), (0x1040, [0xFF0, 0, 0, 0, 0, 0, 0, 0xFF])]

/-- V3-1. -/
theorem test_and : issue 0x20 logicMachine [0x1080] = some ([[0xF00, 0, 0, 0, 0, 0, 0, 0xF]], 0, 0) := by decide +kernel

/-- V3-2. -/
theorem test_or : issue 0x21 logicMachine [0x1080] = some ([[0xFFF0, 0, 0, 0, 0, 0, 0, 0xFFF]], 0, 0) := by decide +kernel

/-- V3-3. -/
theorem test_xor : issue 0x22 logicMachine [0x1080] = some ([[0xF0F0, 0, 0, 0, 0, 0, 0, 0xFF0]], 0, 0) := by
  decide +kernel

/-- V9-3: in place. -/
theorem test_not : issue 0x23 (machine .vector [0x1000, 0x1000] [(0x1000, S)]) [0x1000] =
    some ([[0xFEDCBA9876543210, 0x0123456789ABCDEF, F, F, F, F, 0x7FFFFFFFFFFFFFFE, 0]], 0, 0) := by decide +kernel

/-- V4-6: limb move plus residual. -/
theorem test_shr : issue 0x30 (machine .vector [0x1040, 0x1000, 65] [(0x1000, S)]) [0x1040] =
    some ([[0, 0x0091A2B3C4D5E6F7, 0xFF6E5D4C3B2A1908, 0, 0, 0, 0, 0x4000000000000000]], 0, 0) := by decide +kernel

/-- V4-12: the largest count is not reduced. -/
theorem test_shr_largest : issue 0x30 (machine .vector [0x1040, 0x1000, F] [(0x1000, S)]) [0x1040] =
    some ([[0, 0, 0, 0, 0, 0, 0, 0]], 0, 0) := by decide +kernel

/-- V4-18: limb move plus residual. -/
theorem test_shl : issue 0x31 (machine .vector [0x1040, 0x1000, 65] [(0x1000, S)]) [0x1040] =
    some ([[0xFDB97530ECA86420, 0, 0, 0, 1, 3, 0xFFFFFFFFFFFFFFFE, 0]], 0, 0) := by decide +kernel

/-- V4-24: the largest count. -/
theorem test_shl_largest : issue 0x31 (machine .vector [0x1040, 0x1000, F] [(0x1000, S)]) [0x1040] =
    some ([[0, 0, 0, 0, 0, 0, 0, 0]], 0, 0) := by decide +kernel

/-- V5-7. -/
theorem test_msb : issue 0x40 (machine .vector [0x1000] [(0x1000, [0, 9, 0, 0, 0, 0x8000000000000000, 0xFF, 0])]) [] =
    some ([], 0x183, 0) := by decide +kernel

/-- V5-1. -/
theorem test_msb_zero : issue 0x40 (machine .vector [0x1000] []) [] = some ([], F, 0) := by decide +kernel

/-- V5-8. -/
theorem test_lsb : issue 0x41 (machine .vector [0x1000] [(0x1000, [0, 1, 0, 0, 0, 0x8000000000000000, 0, 0])]) [] =
    some ([], 0xBF, 0) := by decide +kernel

/-- V6-3: the largest product. -/
theorem test_mul : issue 0x50 (machine .vector [0x1080, 0x10C0, 0x1000, 0x1000]
    [(0x1000, [F, F, F, F, F, F, F, F])]) [0x1080, 0x10C0] =
    some ([[0, 0, 0, 0, 0, 0, 0, 1], [F, F, F, F, F, F, F, 0xFFFFFFFFFFFFFFFE]], 0, 0) := by decide +kernel

/-- V6-11: the destinations are one buffer, and the high half is written last. -/
theorem test_mul_overlap : issue 0x50 (machine .vector [0x1000, 0x1000, 0x1000, 0x1000]
    [(0x1000, [0, 0, 0, 0, 0, 0, 0, 3])]) [0x1000] = some ([[0, 0, 0, 0, 0, 0, 0, 0]], 0, 0) := by decide +kernel

/-- V6-7: the low half is 0, but it overflows. -/
theorem test_mullo_overflow : issue 0x51 (machine .vector [0x1080, 0x1000, 0x1000]
    [(0x1000, [0, 0, 0, 1, 0, 0, 0, 0])]) [0x1080] = some ([[0, 0, 0, 0, 0, 0, 0, 0]], 1, 0) := by decide +kernel

/-- P6 line 2: unaligned buffers under SCALAR, X as line 1 leaves it. -/
theorem test_mullo_unaligned : issue 0x51 (machine .scalar [0x1100, 0x1008, 0x1008]
    [(0x1008, [1, 2, 3, 4, 5, 6, 7, 9])]) [0x1100] =
    some ([[0x7A, 0x97, 0xAA, 0xB2, 0xAE, 0x9D, 0x7E, 0x51]], 1, 0) := by decide +kernel

/-- V7-8: a quotient of two limbs. -/
theorem test_div : issue 0x52 (machine .vector [0x1080, 0x10C0, 0x1000, 0x1040]
    [(0x1000, [0, 0, 0, 0, 0, 1, 0, 5]), (0x1040, [0, 0, 0, 0, 0, 0, 0, 7])]) [0x1080, 0x10C0] =
    some ([[0, 0, 0, 0, 0, 0, 0x2492492492492492, 0x4924924924924925], [0, 0, 0, 0, 0, 0, 0, 2]], 0, 0) := by
  decide +kernel

/-- L1-13: nothing is written but STATUS. -/
theorem test_div_by_zero : issue 0x52 (machine .vector [0x1080, 0x10C0, 0x1000, 0x1040]
    [(0x1000, S), (0x1080, oneToEight), (0x10C0, oneToEight)]) [0x1080, 0x10C0] =
    some ([oneToEight, oneToEight], 5, 1) := by decide +kernel

/-! ### Errors -/

/-- V8-2: an illegal word. -/
theorem test_illegal : issue 0x110 (machine .vector [] []) [] = some ([], 5, 0x2) := by decide +kernel

/-- V8-5: ADD with ARG1 misaligned. -/
theorem test_alignment : issue 0x10 (machine .vector [0x1000, 0x1041, 0x1080] []) [] = some ([], 5, 0x113) := by
  decide +kernel

/-- V8-6: MUL with ARG0 not admitted and ARG3 misaligned. -/
theorem test_alignment_first : issue 0x50 (machine .vector [0x9000, 0x1040, 0x1080, 0x10C1] []) [] =
    some ([], 5, 0x313) := by decide +kernel

/-- V8-7: DIV with ARG0 not admitted and the divisor 0. -/
theorem test_bus_first : issue 0x52 (machine .vector [0x9000, 0x1040, 0x1080, 0x10C0] []) [] = some ([], 5, 0x14) := by
  decide +kernel

/-- V8-13: CMP of an unaligned buffer under SCALAR. -/
theorem test_scalar_unaligned : issue 0x04 (machine .scalar [0x1040, 0x1081] [(0x1081, oneToEight)]) [] =
    some ([], F, 0) := by decide +kernel

/-- V8-14 and V8-15: SETS to the window, and to a buffer that exceeds ADDR_WIDTH. -/
theorem test_bus_window : issue 0x03 (machine .vector [0xFFFF0000, 1] []) [] = some ([], 5, 0x14) ∧
    issue 0x03 (machine .scalar [0xFFFFFFE0, 1] []) [] = some ([], 5, 0x14) := by decide +kernel

/-- V8-16: LSB of a buffer both misaligned and not admitted. -/
theorem test_lsb_alignment : issue 0x41 (machine .vector [0x11C1] []) [] = some ([], 5, 0x13) := by decide +kernel

/-- A state faulted as V8-5 leaves it. -/
def faulted : State :=
  { machine .vector [0x1000, 0x1041, 0x1080] [] with cmd := 0x10, status := { err := .alignment, fatal := true, errArg := 1 } }

/-- What reading a field of a next state gives. -/
def field {α : Type} (o : Out) (f : State → α) : Option α :=
  match o with
  | .next t => some (f t)
  | .fault _ => none
  | .refused _ => none

/-- V8-10: after a fault the ARG writes of `SETS [A], #5` take effect and its CMD write is ignored. -/
theorem test_fatal_ignores :
    field (runSteps 3 { faulted with pending := lineEvents faulted.platform 0 ⟨.sets, [.buffer 0x1000, .scalar 5]⟩ })
      (fun t => (t.status.word, t.cmd, t.res, t.arg0, t.arg1, t.mem.isEmpty)) = some (0x113, 0x10, 5, 0x1000, 5, true) := by
  decide +kernel

/-- V8-11: reset clears the fault. -/
theorem test_reset : field (step { faulted with pending := [.reset] })
    (fun t => (t.status.word, t.cmd, t.res, t.arg0, t.arg1, t.arg2)) = some (0, 0, 0, 0, 0, 0) := by decide +kernel

/-- V8-17: host writes to RES, STATUS and CFG are ignored. -/
theorem test_read_only : field (runSteps 3 { faulted with pending :=
      [.write 0 0xFFFF0028 [7, 0, 0, 0, 0, 0, 0, 0] [], .write 0 0xFFFF0030 [0, 0, 0, 0, 0, 0, 0, 0] [],
        .write 0 0xFFFF0038 [0, 0, 0, 0, 0, 0, 0, 0] []] })
    (fun t => (t.res, t.status.word, cfgWord t.cfgVariant)) = some (5, 0x113, 1) := by decide +kernel

/-- P2, the byte dump of D: the host reads limb 0 least-significant byte first. -/
theorem test_host_read : field (step { machine .vector [] [(0x10C0, [0x0123456789ABCDEF, 0, 0, 0, 0, 0, 0, 0])] with
      pending := [.read 0x10C0 9] }) (fun t => t.readData) =
    some [0xEF, 0xCD, 0xAB, 0x89, 0x67, 0x45, 0x23, 0x01, 0x00] := by decide +kernel

/-- 95_test_vectors.md L3: the full expansion of `SETS [A], #1`. -/
theorem test_line_events : lineEvents Config.platform 0 ⟨.sets, [.buffer 0x1000, .scalar 1]⟩ =
    [.write 0 0xFFFF0008 [0, 0x10, 0, 0, 0, 0, 0, 0] [], .write 0 0xFFFF0010 [1, 0, 0, 0, 0, 0, 0, 0] [],
      .write 0 0xFFFF0000 [3, 0, 0, 0, 0, 0, 0, 0] []] := by decide +kernel

/-- P1 lines 6 and 5 in text, and a line R87 does not allow. -/
theorem test_text :
    parseLine [(['B'], 0x1040)] ['l', 'o', 'o', 'p', ':', ' ', 'S', 'H', 'R', ' ', '[', 'B', ']', ',', ' ', '[', '0', 'x', '1',
        '0', '4', '0', ']', ',', ' ', '#', '1', ' ', ';', 'x'] =
      some ⟨some ['l', 'o', 'o', 'p'], .command ⟨.shr, [.buffer 0x1040, .buffer 0x1040, .scalar 1]⟩⟩ ∧
    parseLine [] ['h', 'o', 's', 't', ':', ' ', 'k', ';'] = some ⟨none, .host ['k', ';']⟩ ∧
    parseLine [(['A'], 0)] ['A', 'D', 'D', ' ', '[', 'A', ']'] = none := by decide

/-! ### Witnesses: for each statement with hypotheses, a state and operands that meet them -/

/-- The buffers of a command with four buffer ARGs at A, B, C and D. -/
def ready : State := machine .vector [0x1000, 0x1040, 0x1080, 0x10C0] [(0x1080, S), (0x10C0, oneToEight)]

/-- The same state with a host write of a word to CMD next. -/
def writing (w : Word) (during : List Concurrent) : State :=
  { ready with pending := [.write 0 0xFFFF0000 (bytesLE 8 w.toNat) during] }

theorem writing_next (w : Word) (during : List Concurrent) : CmdWriteNext (writing w during) w during [] :=
  ⟨⟨0, rfl, rfl⟩, rfl⟩

theorem witness_IllegalWord : CmdWriteNext (writing 0x110 []) 0x110 [] [] ∧ ∀ i, decode 0x110 ≠ .ok i :=
  ⟨writing_next _ _, by intro i; cases i <;> decide⟩

theorem witness_ByteOrder_read : regAt 0x38 = some .cfg ∧
    { ready with pending := [.read 0xFFFF0038 8] }.pending = .read (ready.platform.coreBase + 0x38) 8 :: [] := by decide

theorem witness_ByteOrder_cmd : (bytesLE 8 0x52).length = 8 ∧
    (writing 0x52 []).pending = .write 0 ready.platform.coreBase (bytesLE 8 0x52) [] :: [] ∧
    (writing 0x52 []).argOwner.getD 0 = 0 ∧ (writing 0x52 []).status.fatal = false := by decide

theorem witness_ByteOrder_arg : (bytesLE 8 0x1000).length = 8 ∧
    { ready with pending := [.write 7 0xFFFF0020 (bytesLE 8 0x1000) []] }.pending =
      .write 7 (ready.platform.coreBase + 8 + 8 * (3 : Fin 4).val) (bytesLE 8 0x1000) [] :: [] ∧
    ready.argOwner.getD 7 = 7 := by decide

theorem witness_BufferLayout : (0 < 8 ∧ 0 < 8) ∧ 7 < 8 ∧ 7 < 8 := by decide

theorem witness_MemoryForm : Memory.wf [(0x1000, 1), (0x1007, 2)] ∧
    ∀ a, Memory.read [(0x1000, 1), (0x1007, 2)] a = Memory.read [(0x1000, 1), (0x1007, 2)] a := ⟨by decide, fun _ => rfl⟩

theorem witness_StepRuns : CmdWriteNext (writing 0x52 []) 0x52 [] [] ∧ decode 0x52 = .ok .div ∧
    ready.status.fatal = false := ⟨writing_next _ _, by decide, rfl⟩

theorem witness_StepRuns_company : CmdWriteNext (writing 0x52 [.read 0x1080 128]) 0x52 [.read 0x1080 128] [] ∧
    decode 0x52 = .ok .div ∧ Concurrent.reset ∉ [Concurrent.read 0x1080 128] ∧
    ∀ c ∈ [Concurrent.read 0x1080 128],
      conflict (Instr.argMap .div) ((writing 0x52 [.read 0x1080 128]).accept 0x52 []) c = none :=
  ⟨writing_next _ _, by decide, by decide, by decide⟩

theorem witness_Fatal : Faulted faulted ∧ faulted.argOwner.getD 0 = 0 ∧ regAt 0x30 = some .status ∧
    eventResets (cmdWrite faulted.platform 0 3) = false := ⟨rfl, by decide⟩

theorem witness_ArgRegisters : { ready with pending := [argWrite ready.platform 7 3 F] }.pending =
      argWrite ready.platform 7 (3 : Fin 4).val (BitVec.ofNat 64 F) :: [] ∧ ready.argOwner.getD 7 = 7 ∧
    { ready with pending := [.read 0xFFFF0008 8] }.pending = .read (ready.platform.coreBase + 8 + 8 * (0 : Fin 4).val) 8 :: [] ∧
    exec .cmp { ready with arg0 := 1 } = .next (State.raiseFatal { ready with arg0 := 1 } .alignment (Instr.argMap .cmp) 0) :=
  ⟨rfl, rfl, rfl, rfl⟩

theorem witness_ReadOnly : (0x30 = 0x28 ∨ 0x30 = 0x30 ∨ 0x30 = 0x38) ∧
    { ready with pending := [.write 0 0xFFFF0030 (bytesLE 8 0) []] }.pending =
      .write 0 (ready.platform.coreBase + 0x30) (bytesLE 8 (0 : Word).toNat) [] :: [] := by decide

theorem witness_WindowReads : { ready with pending := [.read 0xFFFF0000 8] }.pending =
      .read (ready.platform.coreBase + 0) 8 :: [] ∧
    ((0, ready.cmd) : Nat × Word) ∈ [(0x00, ready.cmd), (0x08, ready.arg0), (0x10, ready.arg1), (0x18, ready.arg2),
      (0x20, ready.arg3), (0x28, ready.res), (0x30, ready.status.word), (0x38, cfgWord ready.cfgVariant)] :=
  ⟨rfl, List.mem_cons_self⟩

/-- A four-byte access in the window, an unaligned one, and one that only ends in it. -/
theorem witness_OddWindow : ready.platform.coreBase % 64 = 0 ∧
    ∀ x ∈ [(0xFFFF0008, 4), (0xFFFF003C, 8), (0xFFFEFFF9, 8)],
      x.1 ≤ ready.platform.coreBase + 63 ∧ ready.platform.coreBase < x.1 + x.2 ∧ ¬ (x.2 = 8 ∧ x.1 % 8 = 0) := by decide

theorem witness_Idle : ready.pending = [] := rfl

theorem witness_Reset : { ready with pending := [.reset] }.pending = .reset :: [] := rfl

theorem witness_InvariantAtReset : Platform.WellFormed { addrWidth := 1, coreBase := 0, regions := [] } ∧
    Platform.WellFormed { addrWidth := 64, coreBase := 2 ^ 64 - 64, regions := [] } := by decide

/-- A state that a run can be in meets the invariant, and its step answers a next state. -/
theorem witness_EveryStep : Inv { State.reset with pending := [.reset] } ∧
    step { State.reset with pending := [.reset] } = .next State.reset :=
  ⟨⟨by decide, by decide, by decide,
    ⟨rfl, fun _ => rfl, (fun h => nomatch h), (fun h => nomatch h), (fun h => nomatch h), (fun h => nomatch h)⟩⟩, rfl⟩

/-- The first byte of ADD's destination is admitted, and free after the reset. -/
theorem witness_ResetDuring : CmdWriteNext (writing 0x10 [.reset]) 0x10 [.reset] [] ∧ decode 0x10 = .ok .add ∧
    InBuffers (writing 0x10 [.reset]) (Instr.argMap .add).dests 0x1000 ∧ ByteAdmitted (writing 0x10 [.reset]).platform 0x1000 :=
  ⟨writing_next _ _, by decide, ⟨0, by unfold InBuffer; decide⟩, by unfold ByteAdmitted; decide⟩

/-- An agent's write of the last byte of DIV's quotient, its read of the first byte of the remainder, a platform that no
longer admits the divisor, and a read of other memory. -/
theorem witness_Conflicts : CmdWriteNext (writing 0x52 [.write 0x103F [0]]) 0x52 [.write 0x103F [0]] [] ∧
    CmdWriteNext (writing 0x52 [.read 0x1040 1]) 0x52 [.read 0x1040 1] [] ∧
    CmdWriteNext (writing 0x52 [.remap []]) 0x52 [.remap []] [] ∧
    CmdWriteNext (writing 0x52 [.read 0x1080 128]) 0x52 [.read 0x1080 128] [] ∧
    decode 0x52 = .ok .div ∧ (0, AccessKind.write) ∈ (Instr.argMap .div).buffers ∧
    (ready.addr 0 ≤ 0x103F ∧ 0x103F < ready.addr 0 + 64) ∧ (1 : Fin 4) ∈ (Instr.argMap .div).dests ∧
    (ready.addr 1 ≤ 0x1040 ∧ 0x1040 < ready.addr 1 + 64) ∧ (3, AccessKind.read) ∈ (Instr.argMap .div).buffers ∧
    admitted { ready.platform with regions := [] } (ready.addr 3) .read ≠ admitted ready.platform (ready.addr 3) .read ∧
    0x1080 + 128 ≤ 2 ^ ready.platform.addrWidth ∧ overlapsWindow ready.platform 0x1080 128 = false ∧
    ∀ j ∈ (Instr.argMap .div).dests, ready.addr j + 64 ≤ 0x1080 :=
  ⟨writing_next _ _, writing_next _ _, writing_next _ _, writing_next _ _, by decide +kernel⟩

theorem witness_Interleaved : { ready with argOwner := some 1 }.argOwner = some 1 ∧ (0 : Nat) ≠ 1 := by decide

theorem witness_HostStore : 0x2000 + [1, 2, 3].length ≤ 2 ^ ready.platform.addrWidth ∧
    overlapsWindow ready.platform 0x2000 [(1 : Byte), 2, 3].length = false ∧
    { ready with pending := [.write 0 0x2000 [1, 2, 3] [], .read 0x2000 3] }.pending =
      .write 0 0x2000 [1, 2, 3] [] :: .read 0x2000 [(1 : Byte), 2, 3].length :: [] := by decide

/-- The two bytes at the top of the address space, the second beyond it. -/
theorem witness_HostOutside : overlapsWindow ready.platform 0xFFFFFFFF 2 = false ∧
    2 ^ ready.platform.addrWidth < 0xFFFFFFFF + 2 := by decide

theorem witness_Line : Line.WellFormed ⟨.div, [.buffer 0x1000, .buffer 0x1040, .buffer 0x1080, .buffer 0x10C0]⟩ = true ∧
    ready.status.fatal = false ∧ ready.argOwner.getD 3 = 3 := by decide

theorem witness_Pseudo : (0x1000 < 2 ^ 64 ∧ 0x1040 < 2 ^ 64) ∧ 2 ^ 64 - 1 < 2 ^ 64 := by decide

theorem witness_Text : parseLine [(['A'], 0x1000)] ['C', 'L', 'R', ' ', '[', 'A', ']'] =
    some { label := none, line := .command ⟨.zero, [.buffer 0x1000]⟩ } := by decide

/-- A well-formed line of a mnemonic, texts that read as its operands, and digits that are no name. -/
theorem witness_Text_reads : Line.WellFormed ⟨.sets, [.buffer 0x1000, .scalar 26]⟩ = true ∧
    List.Forall₂ (fun text o => parseOperand [(['A'], 0x1000)] text = some o ∧ ',' ∉ text ∧ ';' ∉ text)
      [['[', 'A', ']'], ['#', '0', 'x', '1', 'a']] [.buffer 0x1000, .scalar 26] ∧
    (0x1000 < 2 ^ 64 ∧ 2 ^ 64 - 1 < 2 ^ 64) ∧
    ([(['A'], 0x1000)] : List (List Char × Nat)).lookup ['A'] = some 0x1000 ∧ trimBlanks ['A'] = ['A'] ∧
    ([4, 2] : List (Fin 10)) ≠ [] ∧ ([1, 10] : List (Fin 16)) ≠ [] ∧
    ([(['A'], 0x1000)] : List (List Char × Nat)).lookup (([4, 2] : List (Fin 10)).map fun d => Nat.digitChar d.val) = none ∧
    ([(['A'], 0x1000)] : List (List Char × Nat)).lookup
      ('0' :: 'x' :: ([1, 10] : List (Fin 16)).map fun d => Nat.digitChar d.val) = none :=
  ⟨by decide, .cons (by decide) (.cons (by decide) .nil), by decide⟩

/-- V8-6: ARG3 is the lowest misaligned of MUL; and a state under SCALAR that runs. -/
theorem witness_Misaligned :
    LowestMisaligned (machine .vector [0x9000, 0x1040, 0x1080, 0x10C1] []) (Instr.argMap .mul).buffers 3 ∧
    (machine .scalar [0x1001] []).cfgVariant = .scalar :=
  ⟨⟨rfl, ⟨.read, by decide⟩, by decide, by decide⟩, rfl⟩

/-- The first byte past the admitted region, at ARG1 of ADD; and V8-7 at ARG0. -/
theorem witness_Unadmitted :
    LowestUnadmitted (machine .vector [0x1000, 0x1200, 0x9000] []) (Instr.argMap .add).buffers 1 ∧
    LowestUnadmitted (machine .vector [0x9000, 0x1040, 0x1080, 0x10C0] []) (Instr.argMap .div).buffers 0 :=
  ⟨⟨by decide, ⟨.read, by decide⟩, by decide⟩, ⟨by decide, ⟨.write, by decide⟩, by decide⟩⟩

/-- Destination bytes that become free: both ends of MUL's second destination in V8-6, and ADD's destination; the first byte
of V8-6's other destination is not admitted and keeps its value. -/
theorem witness_free_bytes :
    let s := machine .vector [0x9000, 0x1040, 0x1080, 0x10C1] []
    let s' := machine .vector [0x1000, 0x1200, 0x9000] []
    (InBuffers s (Instr.argMap .mul).dests 0x1040 ∧ ByteAdmitted s.platform 0x1040) ∧
      (InBuffers s (Instr.argMap .mul).dests 0x107F ∧ ByteAdmitted s.platform 0x107F) ∧
      (InBuffers s (Instr.argMap .mul).dests 0x9000 ∧ ¬ ByteAdmitted s.platform 0x9000) ∧
      InBuffers s' (Instr.argMap .add).dests 0x1000 ∧ ByteAdmitted s'.platform 0x1000 :=
  ⟨⟨⟨1, by unfold InBuffer; decide⟩, by unfold ByteAdmitted; decide⟩,
    ⟨⟨1, by unfold InBuffer; decide⟩, by unfold ByteAdmitted; decide⟩,
    ⟨⟨0, by unfold InBuffer; decide⟩, by unfold ByteAdmitted; decide⟩,
    ⟨0, by unfold InBuffer; decide⟩, by unfold ByteAdmitted; decide⟩

/-- Four buffer ARGs, two of them destinations (MUL, DIV). -/
theorem witness_ready_four : BuffersReady ready [(0, .write), (1, .write), (2, .read), (3, .read)] := by decide

/-- One destination and two sources (ADD, SUB, AND, OR, XOR, MULLO). -/
theorem witness_ready_three : BuffersReady ready [(0, .write), (1, .read), (2, .read)] := by decide

/-- One destination and one source (COPY, ADDS, SUBS, NOT, SHR, SHL), the last buffer of the admitted region among them. -/
theorem witness_ready_two : BuffersReady (machine .vector [0x11C0, 0x1000] []) [(0, .write), (1, .read)] := by decide

/-- One destination (ZERO, SETS); two sources (CMP); one source (CMPS, MSB, LSB); unaligned under SCALAR. -/
theorem witness_ready_one : BuffersReady ready [(0, .write)] ∧ BuffersReady ready [(0, .read), (1, .read)] ∧
    BuffersReady ready [(0, .read)] ∧ BuffersReady (machine .scalar [0x1001] []) [(0, .write)] := by decide

/-- A zero divisor and a nonzero one (DIV). -/
theorem witness_divisor : (machine .vector [0x1000, 0x1040, 0x1080, 0x10C0] []).wide 3 = 0 ∧ ready.wide 3 ≠ 0 := by
  decide +kernel

/-- Destinations apart, and destinations that share a byte (MUL, DIV). -/
theorem witness_destinations : (∀ a, InBuffer ready 0 a → ¬ InBuffer ready 1 a) ∧
    InBuffer (machine .scalar [0x1000, 0x103F, 0x1080, 0x10C0] []) 1 (0x1000 + 8 * 7 + 7) ∧
    ¬ InBuffer (machine .scalar [0x1000, 0x103F, 0x1080, 0x10C0] []) 1 (0x1000 + 8 * 7 + 6) := by
  have h₀ : ready.addr 0 = 0x1000 := by decide
  have h₁ : ready.addr 1 = 0x1040 := by decide
  have h₂ : (machine .scalar [0x1000, 0x103F, 0x1080, 0x10C0] []).addr 1 = 0x103F := by decide
  refine ⟨fun a => ?_, ?_, ?_⟩ <;> simp only [InBuffer, h₀, h₁, h₂] <;> omega

/-- ErrorPriority's four cases: an illegal word, V8-6, V8-7, and a state whose buffers are ready. -/
theorem witness_Priority_illegal : CmdWriteNext (writing 0 []) 0 [] [] ∧ ∀ i, decode 0 ≠ .ok i :=
  ⟨writing_next _ _, by intro i; cases i <;> decide⟩

theorem witness_Priority_alignment :
    let s := { machine .vector [0x9000, 0x1040, 0x1080, 0x10C1] [] with
      pending := [.write 0 0xFFFF0000 (bytesLE 8 (0x50 : Word).toNat) []] }
    CmdWriteNext s 0x50 [] [] ∧ decode 0x50 = .ok .mul ∧ LowestMisaligned s (Instr.argMap .mul).buffers 3 :=
  ⟨⟨⟨0, rfl, rfl⟩, rfl⟩, by decide, ⟨rfl, ⟨.read, by decide⟩, by decide, by decide⟩⟩

theorem witness_Priority_bus :
    let s := { machine .vector [0x9000, 0x1040, 0x1080, 0x10C0] [] with
      pending := [.write 0 0xFFFF0000 (bytesLE 8 (0x52 : Word).toNat) []] }
    CmdWriteNext s 0x52 [] [] ∧ decode 0x52 = .ok .div ∧ LowestUnadmitted s (Instr.argMap .div).buffers 0 :=
  ⟨⟨⟨0, rfl, rfl⟩, rfl⟩, by decide, ⟨by decide, ⟨.write, by decide⟩, by decide⟩⟩

theorem witness_Priority_ready : CmdWriteNext (writing 0x52 []) 0x52 [] [] ∧ decode 0x52 = .ok .div ∧
    BuffersReady (writing 0x52 []) (Instr.argMap .div).buffers := ⟨writing_next _ _, by decide, by decide⟩

theorem witness_Variant : (∀ b ∈ (Instr.argMap .cmp).buffers, ready.addr b.1 % 64 = 0) ∧
    exec .msb { ready with cfgVariant := .scalar, arg0 := 0x9000 } =
      .next (State.raiseFatal { ready with cfgVariant := .scalar, arg0 := 0x9000 } .busError (Instr.argMap .msb) 0) :=
  ⟨by decide, rfl⟩

/-- Two states with the same FATAL that differ in RES, in the ARGs MSB does not use and in memory outside its source. -/
theorem witness_Inputs :
    let s := { ready with arg1 := 0, res := 9, mem := (ready.mem.write 0x11FF 1) }
    s.cfgVariant = ready.cfgVariant ∧ s.platform = ready.platform ∧
      (∀ j, (Instr.argMap .msb).kind j ≠ .unused → s.arg j = ready.arg j) ∧
      s.status.fatal = ready.status.fatal ∧ ∀ k < 64, s.mem.read (0x1000 + k) = ready.mem.read (0x1000 + k) := by
  refine ⟨rfl, rfl, ?_, rfl, ?_⟩
  · intro j
    match j with
    | 0 => exact fun _ => rfl
    | 1 | 2 | 3 => exact fun h => absurd rfl h
  · decide +kernel

/-- CMP's clauses: limb 7 the first unequal limb, and no unequal limb. -/
theorem witness_Cmp :
    let x := wideOf [0, 0, 0, 0, 0, 0, 0, 5]
    let y := wideOf [0, 0, 0, 0, 0, 0, 0, 7]
    (∀ i < 7, limb x i = limb y i) ∧ limb x 7 ≠ limb y 7 ∧ ∀ i < 8, limb x i = limb x i := by decide +kernel

/-- CMPS's clauses. -/
theorem witness_Cmps : (∃ i < 7, limb (wideOf [0, 0, 0, 0, 0, 0, 1, 0]) i ≠ 0) ∧
    ∀ i < 7, limb (wideOf [0, 0, 0, 0, 0, 0, 0, 5]) i = 0 := by decide +kernel

/-- The counts of ShiftLaws at their bounds. -/
theorem witness_ShiftLaws : (511 : Word).toNat < 512 ∧ (1 : Word).toNat + (BitVec.ofNat 64 (F - 1)).toNat < 2 ^ 64 := by
  decide

theorem witness_ShiftLimbForm : 0 < 8 ∧ 7 < 8 := by decide

/-- MSB's clauses on L1-9's value: limb 1 and its bit 3; and on zero. -/
theorem witness_Msb :
    let x := wideOf [0, 9, 0, 0, 0, 0x8000000000000000, 0xFF, 0]
    (∀ k < 1, limb x k = 0) ∧ (limb x 1).getLsbD 3 = true ∧ (∀ b < 64, 3 < b → (limb x 1).getLsbD b = false) ∧
      ∀ i < 8, limb (wideOf [0, 0, 0, 0, 0, 0, 0, 0]) i = 0 := by decide +kernel

/-- LSB's clauses on L1-10's value: limb 5 and its bit 63. -/
theorem witness_Lsb :
    let x := wideOf [0, 1, 0, 0, 0, 0x8000000000000000, 0, 0]
    (∀ k < 8, 5 < k → limb x k = 0) ∧ (limb x 5).getLsbD 63 = true ∧ ∀ b < 63, (limb x 5).getLsbD b = false := by
  decide +kernel

theorem witness_BitScanLaws : wideOf [0x8000000000000000, 0, 0, 0, 0, 0, 0, 0] ≠ 0 := by decide +kernel

theorem witness_MultiplicativeLaws : wideOf [0, 0, 0, 0, 0, 0, 0, 7] ≠ 0 := by decide +kernel

end Sys2Proof.Tests
end

/-! Proofs of the scope family: the invariant at reset and over a step (R9, R30, R34), the independence of VARIANT (R57, R272),
and the assembler's lines (R81, R87, R89). -/

namespace Sys2Proof.Machine

open Sys2Proof

/-! ### What an access and a concurrent happening can do -/

/-- A memory access that goes on lies in the memory (R34). -/
theorem memoryAccess_next {s t : State} {a n : Nat} {f : State → Out} (h : memoryAccess s a n f = .next t) :
    a + n ≤ 2 ^ s.platform.addrWidth ∧ f s = .next t := by
  unfold memoryAccess at h
  split at h
  · exact ⟨of_decide_eq_true ‹_›, h⟩
  · cases h

/-- A host access that goes on has reached a register or the memory (R23, R34). -/
theorem hostAccess_next {s t : State} {a n : Nat} {f : Reg → Out} {g : State → Out} (h : hostAccess s a n f g = .next t) :
    (∃ r, f r = .next t) ∨ (a + n ≤ 2 ^ s.platform.addrWidth ∧ g s = .next t) := by
  unfold hostAccess at h
  split at h
  · split at h
    · exact .inl ⟨_, h⟩
    · cases h
  · exact .inr (memoryAccess_next h)

/-- Everything that can happen beside a command and go on: a read changes nothing, a write stores inside the memory, a remap
changes the regions, a reset is the CORE's reset (R67, R262, R269). -/
theorem runConcurrent_cases {c : Concurrent} {s t : State} (h : runConcurrent c s = .next t) :
    (∃ a n, c = .read a n ∧ t = s) ∨
    (∃ a data, c = .write a data ∧ a + data.length ≤ 2 ^ s.platform.addrWidth ∧
      t = { s with mem := s.mem.store a data }) ∨
    (∃ regions, c = .remap regions ∧ t = { s with platform := { s.platform with regions := regions } }) ∨
    (c = .reset ∧ t = s.coreReset) := by
  cases c with
  | read a n =>
    rw [runConcurrent] at h
    split at h
    · cases h
    · cases (memoryAccess_next h).2
      exact .inl ⟨a, n, rfl, rfl⟩
  | write a data =>
    rw [runConcurrent] at h
    split at h
    · cases h
    · obtain ⟨hin, ht⟩ := memoryAccess_next h
      cases ht
      exact .inr (.inl ⟨a, data, rfl, hin, rfl⟩)
  | remap regions =>
    cases h
    exact .inr (.inr (.inl ⟨regions, rfl, rfl⟩))
  | reset =>
    cases h
    exact .inr (.inr (.inr ⟨rfl, rfl⟩))

/-! ### The invariant in two parts: memory on a legal platform, and STATUS

A command that a reset abandons leaves CMD with the new word and STATUS as before, so between the two only the part about
memory holds; the reset then restores the part about STATUS. -/

/-- The part of the invariant about memory and the platform (R9, R34). -/
structure MemoryFits (s : State) : Prop where
  wf : s.mem.wf
  inRange : ∀ c ∈ s.mem, c.1 < 2 ^ s.platform.addrWidth
  platform : s.platform.WellFormed

theorem inv_iff (s : State) : Inv s ↔ MemoryFits s ∧ StatusFits s :=
  ⟨fun h => ⟨⟨h.wf, h.inRange, h.platform⟩, h.status⟩, fun ⟨hm, hs⟩ => ⟨hm.wf, hm.inRange, hm.platform, hs⟩⟩

/-- It depends on memory and the platform only. -/
theorem MemoryFits.congr {s t : State} (h : MemoryFits s) (hm : t.mem = s.mem) (hp : t.platform = s.platform) :
    MemoryFits t :=
  ⟨hm ▸ h.wf, hm ▸ hp ▸ h.inRange, hp ▸ h.platform⟩

theorem MemoryFits.store {s : State} (h : MemoryFits s) {a : Nat} {data : List Byte}
    (hin : a + data.length ≤ 2 ^ s.platform.addrWidth) : MemoryFits { s with mem := s.mem.store a data } where
  wf := Memory.wf_store _ _ _ h.wf
  inRange c hc := (Memory.mem_store _ _ _ c hc).elim (h.inRange c) fun hr => Nat.lt_of_lt_of_le hr.2 hin
  platform := h.platform

theorem MemoryFits.remap {s : State} (h : MemoryFits s) (regions : List Region) :
    MemoryFits { s with platform := { s.platform with regions := regions } } :=
  ⟨h.wf, h.inRange, h.platform⟩

theorem MemoryFits.freeDests {s : State} (h : MemoryFits s) (m : ArgMap) : MemoryFits (s.freeDests m) := by
  obtain ⟨hw, hr⟩ := freeDests_keeps s m h.wf h.inRange
  exact ⟨hw, by simpa using hr, by simpa using h.platform⟩

/-- Completing writes only inside admitted destinations, which are memory (R59). -/
theorem MemoryFits.complete {s : State} (h : MemoryFits s) {m : ArgMap} (r : Result) (hb : BuffersReady s m.buffers) :
    MemoryFits (complete m r s) where
  wf := wf_writes _ _ _ _ h.wf
  inRange c hc := by
    rcases mem_writes _ _ _ _ c hc with hc | ⟨j, hj, _, hlt⟩
    · exact h.inRange c hc
    · exact Nat.lt_of_lt_of_le hlt (admitted_inMemory _ _ _ (hb _ (mem_dests m j hj)).2)
  platform := h.platform

/-- The part about STATUS depends on STATUS, CMD and CFG.VARIANT only. -/
theorem StatusFits.congr {s t : State} (h : StatusFits s) (hs : t.status = s.status) (hc : t.cmd = s.cmd)
    (hv : t.cfgVariant = s.cfgVariant) : StatusFits t where
  fatal := hs ▸ h.fatal
  errArg := hs ▸ h.errArg
  divideByZero := hs ▸ hc ▸ h.divideByZero
  illegal := hs ▸ hc ▸ h.illegal
  alignment := hs ▸ hv ▸ h.alignment
  buffer := hs ▸ hc ▸ h.buffer

/-- STATUS with no error fits any word in CMD (R30, R35). -/
theorem StatusFits.of_clear {s : State} (h : s.status = Status.clear) : StatusFits s := by
  constructor <;> simp [h, Status.clear, ErrCode.isFatal]

/-- Recording an error that fits the command in CMD, where FATAL was 0 (R30, R236, R240). -/
theorem StatusFits.raise {s : State} {code : ErrCode} {j : Fin 4} (hf : s.status.fatal = false)
    (hd : code = .divideByZero → decode s.cmd = .ok .div) (hi : code = .illegalCommand → ∀ i, decode s.cmd ≠ .ok i)
    (ha : code = .alignment → s.cfgVariant = .vector)
    (hb : code.isFatal = true → ∃ i, decode s.cmd = .ok i ∧ ∃ k, (j, k) ∈ i.argMap.buffers) :
    StatusFits (s.raise code j) where
  fatal := by simp [hf]
  errArg h := by
    rw [State.raise_err] at h
    simp [h]
  divideByZero := hd
  illegal := hi
  alignment := ha
  buffer h := by
    rw [State.raise_err] at h
    simpa [h] using hb h

/-- A fatal error fits the command in CMD when it names a buffer of it (R238, R239). -/
theorem StatusFits.raiseFatal {s : State} {i : Instr} {code : ErrCode} {j : Fin 4} (hf : s.status.fatal = false)
    (hi : decode s.cmd = .ok i) (hc : code.isFatal = true) (ha : code = .alignment → s.cfgVariant = .vector)
    (hb : ∃ k, (j, k) ∈ i.argMap.buffers) : StatusFits (s.raiseFatal code i.argMap j) := by
  refine StatusFits.raise (by simpa using hf) ?_ ?_ (by simpa using ha) fun _ => ⟨i, by simpa using hi, hb⟩
  · rintro rfl
    cases hc
  · rintro rfl
    cases hc

/-- Only DIV's body ends in DIVIDE_BY_ZERO (R202, R242). -/
theorem eq_div_of_divideByZero {i : Instr} {x : Snapshot} (h : bodyOf i x = .divideByZero) : i = .div := by
  cases i
  case div => rfl
  all_goals cases h

/-- The invariant says nothing of the other fields. -/
theorem Inv.congr {s t : State} (h : Inv s) (hm : t.mem = s.mem) (hp : t.platform = s.platform) (hs : t.status = s.status)
    (hc : t.cmd = s.cmd) (hv : t.cfgVariant = s.cfgVariant) : Inv t := by
  obtain ⟨hmem, hst⟩ := (inv_iff s).1 h
  exact (inv_iff t).2 ⟨hmem.congr hm hp, hst.congr hs hc hv⟩

/-! ### A command keeps both parts -/

theorem exec_memoryFits {i : Instr} {s t : State} (hs : MemoryFits s) (h : exec i s = .next t) : MemoryFits t := by
  rw [exec_eq_execute] at h
  obtain ⟨j, _, e⟩ | ⟨j, _, _, e⟩ | ⟨_, _, e⟩ | ⟨r, hb, _, e⟩ := execute_cases i.argMap (bodyOf i) s <;>
    cases e.symm.trans h
  · exact (hs.freeDests i.argMap).congr rfl rfl
  · exact (hs.freeDests i.argMap).congr rfl rfl
  · exact hs.congr rfl rfl
  · exact hs.complete r hb

/-- A command that runs, so with FATAL 0, leaves a STATUS that describes it (R30, R236). -/
theorem exec_statusFits {i : Instr} {s t : State} (hf : s.status.fatal = false) (hi : decode s.cmd = .ok i)
    (h : exec i s = .next t) : StatusFits t := by
  rw [exec_eq_execute] at h
  obtain ⟨j, hj, e⟩ | ⟨j, _, hj, e⟩ | ⟨_, hz, e⟩ | ⟨r, _, _, e⟩ := execute_cases i.argMap (bodyOf i) s <;>
    cases e.symm.trans h
  · obtain ⟨hm, hb⟩ := firstMisaligned_some _ _ _ hj
    exact .raiseFatal hf hi rfl (fun _ => ((misaligned_iff s j).1 hm).1) hb
  · obtain ⟨k, hk, _⟩ := firstUnadmitted_some _ _ _ hj
    exact .raiseFatal hf hi rfl (by simp) ⟨k, hk⟩
  · cases eq_div_of_divideByZero hz
    exact .raise hf (fun _ => hi) (by simp) (by simp) (by simp [ErrCode.isFatal])
  · exact .of_clear (by simp [hf, Status.clear])

/-! ### What happens beside a command keeps both parts, and a reset makes STATUS fit -/

theorem runConcurrent_memoryFits {c : Concurrent} {s t : State} (hs : MemoryFits s) (h : runConcurrent c s = .next t) :
    MemoryFits t := by
  obtain ⟨_, _, -, rfl⟩ | ⟨_, _, -, hin, rfl⟩ | ⟨regions, -, rfl⟩ | ⟨-, rfl⟩ := runConcurrent_cases h
  · exact hs
  · exact hs.store hin
  · exact hs.remap regions
  · exact hs.congr rfl rfl

theorem runConcurrent_statusFits {c : Concurrent} {s t : State} (hs : StatusFits s) (h : runConcurrent c s = .next t) :
    StatusFits t := by
  obtain ⟨_, _, -, rfl⟩ | ⟨_, _, -, -, rfl⟩ | ⟨_, -, rfl⟩ | ⟨-, rfl⟩ := runConcurrent_cases h
  · exact hs
  · exact hs.congr rfl rfl rfl
  · exact hs.congr rfl rfl rfl
  · exact .of_clear rfl

theorem runAll_memoryFits {cs : List Concurrent} {s t : State} (hs : MemoryFits s) (h : runAll cs s = .next t) :
    MemoryFits t :=
  runAll_keeps MemoryFits cs (fun _ _ _ _ => runConcurrent_memoryFits) s t hs h

theorem runAll_statusFits {cs : List Concurrent} {s t : State} (hs : StatusFits s) (h : runAll cs s = .next t) :
    StatusFits t :=
  runAll_keeps StatusFits cs (fun _ _ _ _ => runConcurrent_statusFits) s t hs h

theorem runAll_inv {cs : List Concurrent} {s t : State} (hs : Inv s) (h : runAll cs s = .next t) : Inv t := by
  obtain ⟨hm, hst⟩ := (inv_iff s).1 hs
  exact (inv_iff t).2 ⟨runAll_memoryFits hm h, runAll_statusFits hst h⟩

/-- With a reset among them STATUS fits afterwards, whatever it was before (R260, R262). -/
theorem runAll_statusFits_of_reset {cs : List Concurrent} {s t : State} (hr : Concurrent.reset ∈ cs)
    (h : runAll cs s = .next t) : StatusFits t := by
  induction cs generalizing s with
  | nil => cases hr
  | cons c cs ih =>
    obtain ⟨u, hu, h⟩ := thenDo_next _ _ _ h
    rcases List.mem_cons.1 hr with rfl | hr
    · cases hu
      exact runAll_statusFits (.of_clear (State.coreReset_status s)) h
    · exact ih hr h

/-! ### A step keeps the invariant -/

/-- A command in progress with its company: abandoned by a reset, or run and followed by the company (R67, R262). -/
theorem runDuring_inv {i : Instr} {during : List Concurrent} {s t : State} (hs : MemoryFits s)
    (hf : s.status.fatal = false) (hi : decode s.cmd = .ok i) (h : runDuring i during s = .next t) : Inv t := by
  unfold runDuring at h
  split at h
  · cases h
  · split at h
    · have hr : Concurrent.reset ∈ during := by simpa using ‹during.contains .reset = true›
      exact (inv_iff t).2 ⟨runAll_memoryFits (hs.freeDests _) h, runAll_statusFits_of_reset hr h⟩
    · obtain ⟨u, hu, h⟩ := thenDo_next _ _ _ h
      exact runAll_inv ((inv_iff u).2 ⟨exec_memoryFits hs hu, exec_statusFits hf hi hu⟩) h

/-- A CMD write: ignored while FATAL is 1, else run, or ended in ILLEGAL_COMMAND (R24, R241, R243). -/
theorem writeCmd_inv {v : Word} {during : List Concurrent} {s t : State} (hs : Inv s)
    (h : writeCmd v during s = .next t) : Inv t := by
  obtain ⟨hm, _⟩ := (inv_iff s).1 hs
  have hm' : MemoryFits { s with cmd := v } := hm.congr rfl rfl
  unfold writeCmd at h
  split at h
  · exact runAll_inv hs h
  · have hf : s.status.fatal = false := by simpa using ‹¬ s.status.fatal = true›
    split at h
    · exact runDuring_inv hm' hf ‹_› h
    · rename_i e he
      have hst : StatusFits (State.raise { s with cmd := v } .illegalCommand 0) :=
        .raise hf (by simp) (fun _ i => by simp [he]) (by simp) (by simp [ErrCode.isFatal])
      have hs' : Inv (State.raise { s with cmd := v } .illegalCommand 0) := (inv_iff _).2 ⟨hm'.congr rfl rfl, hst⟩
      exact runAll_inv hs' h

theorem writeRegister_inv {thread : Nat} {r : Reg} {v : Word} {during : List Concurrent} {s t : State} (hs : Inv s)
    (h : writeRegister thread r v during s = .next t) : Inv t := by
  cases r with
  | cmd =>
    have hs' : Inv { s with argOwner := none } := hs.congr rfl rfl rfl rfl rfl
    rw [writeRegister] at h
    split at h
    · exact writeCmd_inv hs' h
    · cases h
  | arg j =>
    have hs' : Inv { s.setArg j v with argOwner := some thread } := by apply hs.congr <;> simp
    rw [writeRegister] at h
    split at h
    · exact runAll_inv hs' h
    · cases h
  | res | status | cfg => exact runAll_inv hs h

theorem runEvent_inv {e : Event} {s t : State} (hs : Inv s) (h : runEvent e s = .next t) : Inv t := by
  obtain ⟨hm, hst⟩ := (inv_iff s).1 hs
  cases e with
  | read a n =>
    obtain ⟨r, h⟩ | ⟨_, h⟩ := hostAccess_next h
    · cases h
      exact hs.congr rfl rfl rfl rfl rfl
    · cases h
      exact hs.congr rfl rfl rfl rfl rfl
  | write thread a data during =>
    obtain ⟨r, h⟩ | ⟨hin, h⟩ := hostAccess_next h
    · exact writeRegister_inv hs h
    · exact runAll_inv ((inv_iff _).2 ⟨hm.store hin, hst.congr rfl rfl rfl⟩) h
  | reset =>
    cases h
    exact (inv_iff _).2 ⟨hm.congr rfl rfl, .of_clear rfl⟩
  | remap regions =>
    cases h
    exact (inv_iff _).2 ⟨hm.remap regions, hst.congr rfl rfl rfl⟩

/-- Settles O19: the event taken off the list leaves the invariant as it was, and every event keeps it. -/
theorem everyStepKeepsInvariant : Obligations.EveryStepKeepsInvariant := by
  intro s t hs h
  match hp : s.pending with
  | [] =>
    cases (step_nil s hp).symm.trans h
    exact hs
  | e :: rest =>
    have hs' : Inv { s with pending := rest } := hs.congr rfl rfl rfl rfl rfl
    rw [step_cons s e rest hp] at h
    exact runEvent_inv hs' h

theorem inv_resetOn (v : Variant) (p : Platform) (hp : p.WellFormed) : Inv (State.resetOn v p) :=
  (inv_iff _).2 ⟨⟨⟨List.Pairwise.nil, nofun⟩, nofun, hp⟩, .of_clear rfl⟩

/-- Settles O18. -/
theorem invariantHoldsAtReset : Obligations.InvariantHoldsAtReset :=
  ⟨inv_resetOn, inv_resetOn Config.variant Config.platform (by decide)⟩

end Sys2Proof.Machine

namespace Sys2Proof.Machine

open Sys2Proof

/-! ### VARIANT is read by the alignment check alone (R31, R57, R272) -/

/-- The same state of a build with the other VARIANT (R8). -/
def State.withVariant (s : State) (v : Variant) : State := { s with cfgVariant := v }

theorem freeByteAt_withVariant (s : State) (v : Variant) (a : Nat) :
    (s.withVariant v).freeByteAt a = (s.freeByteAt a).withVariant v := by
  by_cases h : (inMemory s.platform a 1 && memAdmit s.platform a 1 .write) = true <;>
    simp [State.freeByteAt, State.withVariant, h]

theorem freeBytes_withVariant (s : State) (v : Variant) (a n : Nat) :
    (s.withVariant v).freeBytes a n = (s.freeBytes a n).withVariant v := by
  induction n with
  | zero => rfl
  | succ n ih => rw [State.freeBytes, ih, freeByteAt_withVariant, State.freeBytes]

theorem freeDests_withVariant (s : State) (v : Variant) (m : ArgMap) :
    (s.withVariant v).freeDests m = (s.freeDests m).withVariant v :=
  List.foldl_hom (State.withVariant · v) fun t j => freeBytes_withVariant t v (t.addr j) 64

/-- Aligned buffers break the alignment rule under neither variant (R56, R57). -/
theorem firstMisaligned_of_aligned {m : ArgMap} {s : State} (h : ∀ b ∈ m.buffers, s.addr b.1 % 64 = 0) :
    firstMisaligned m s = none := by
  rw [firstMisaligned, Option.map_eq_none_iff, List.find?_eq_none]
  exact fun b hb hm => ((misaligned_iff s b.1).1 hm).2 (h b hb)

/-- On aligned buffers a command does the same under every variant, which it leaves alone (R57, R272). -/
theorem execute_withVariant (m : ArgMap) (body : Snapshot → BodyOutcome) (s : State) (v : Variant)
    (h : ∀ b ∈ m.buffers, s.addr b.1 % 64 = 0) :
    execute m body (s.withVariant v) = thenDo (execute m body s) fun t => .next (t.withVariant v) := by
  have hv : firstMisaligned m (s.withVariant v) = none := firstMisaligned_of_aligned h
  have hu : firstUnadmitted m (s.withVariant v) = firstUnadmitted m s := rfl
  have hx : snapshot m (s.withVariant v) = snapshot m s := rfl
  simp only [execute, hv, firstMisaligned_of_aligned h, hu, hx]
  split
  · simp only [State.raiseFatal, freeDests_withVariant]
    rfl
  · split <;> rfl

/-- Settles O33. -/
theorem variantIsNotObservable : Obligations.VariantIsNotObservable := by
  intro i s t h hs
  have hv := execute_withVariant i.argMap (bodyOf i) (s.withVariant .scalar) .vector h
  rw [← exec_eq_execute, ← exec_eq_execute] at hv
  exact hv.trans (by rw [State.withVariant, hs]; rfl)

end Sys2Proof.Machine

namespace Sys2Proof.Machine

open Sys2Proof

/-! ### Numbers and operands (R10, R83, R87) -/

/-- Without `0x` in front and no `_` first, a number is decimal. -/
theorem parseNumber_decimal {cs : List Char} (hne : cs ≠ []) (hg : cs.head? ≠ some '_') (hx : cs[1]? ≠ some 'x') :
    parseNumber cs = numberOfDigits 10 0 cs := by
  unfold parseNumber
  split <;> simp_all

/-- After `0x` and with no `_` first, a number is hexadecimal. -/
theorem parseNumber_hexadecimal {cs : List Char} (hne : cs ≠ []) (hg : cs.head? ≠ some '_') :
    parseNumber ('0' :: 'x' :: cs) = numberOfDigits 16 0 cs := by
  unfold parseNumber
  split <;> simp_all

/-- The characters of digits are neither `_` nor `x`. -/
theorem digitChars_ne {base : Nat} (ds : List (Fin base)) :
    ∀ c ∈ ds.map fun d => Nat.digitChar d.val, c ≠ '_' ∧ c ≠ 'x' := by
  simp

theorem parseNumber_decimalDigits (ds : List (Fin 10)) (hne : ds ≠ []) :
    parseNumber (ds.map fun d => Nat.digitChar d.val) = some (ds.foldl (fun n d => n * 10 + d.val) 0) := by
  have hc := digitChars_ne ds
  rw [parseNumber_decimal (by simpa using hne) (fun h => (hc _ (List.mem_of_mem_head? h)).1 rfl)
    fun h => (hc _ (List.mem_of_getElem? h)).2 rfl]
  exact numberOfDigits_digits 10 (by simp) ds 0

theorem parseNumber_hexadecimalDigits (ds : List (Fin 16)) (hne : ds ≠ []) :
    parseNumber ('0' :: 'x' :: ds.map fun d => Nat.digitChar d.val) = some (ds.foldl (fun n d => n * 16 + d.val) 0) := by
  have hc := digitChars_ne ds
  rw [parseNumber_hexadecimal (by simpa using hne) fun h => (hc _ (List.mem_of_mem_head? h)).1 rfl]
  exact numberOfDigits_digits 16 (by simp) ds 0

/-- A text between brackets, with no blank at its ends, is a name or else a number. -/
theorem parseOperand_brackets (names : List (List Char × Nat)) {a : List Char} (ha : trimBlanks a = a) :
    parseOperand names ('[' :: (a ++ [']'])) = ((names.lookup a).or (parseNumber a)).map .buffer := by
  simp [parseOperand, ha]

/-- A text that is a number reads as a scalar after `#`, and as a buffer between brackets where it is no name. -/
theorem parseOperand_number (names : List (List Char × Nat)) {a : List Char} {n : Nat} (h : parseNumber a = some n) :
    parseOperand names ('#' :: a) = some (.scalar n) ∧
      (names.lookup a = none → parseOperand names ('[' :: (a ++ [']'])) = some (.buffer n)) := by
  obtain ⟨_, hb⟩ := parseNumber_some a n h
  have ha : trimBlanks a = a :=
    trimBlanks_eq a (fun c hc => hb c (List.mem_of_mem_head? hc)) fun c hc => hb c (List.mem_of_getLast? hc)
  refine ⟨by simp [parseOperand, h], fun hn => ?_⟩
  rw [parseOperand_brackets names ha, hn, h]
  rfl

/-- A name reads as the buffer at its address. -/
theorem parseOperand_name {names : List (List Char × Nat)} {name : List Char} {addr : Nat}
    (hn : names.lookup name = some addr) (ht : trimBlanks name = name) :
    parseOperand names ('[' :: (name ++ [']'])) = some (.buffer addr) := by
  rw [parseOperand_brackets names ht, hn]
  rfl

/-! ### The command of a line (R81, R87, R89) -/

/-- Only a legal command line is read (R87). -/
theorem parseCommand_wellFormed {name : List Char} {ops : List LineOperand} {l : Line}
    (h : parseCommand name ops = some l) : l.WellFormed = true :=
  (Option.filter_eq_some_iff.1 h).2

/-- A mnemonic of R81 with operands that fit it reads as its command. -/
theorem parseCommand_mnemonic {name : List Char} {ops : List LineOperand} {i : Instr}
    (hn : commandNames.lookup name = some i) (hw : Line.WellFormed ⟨i, ops⟩ = true) :
    parseCommand name ops = some ⟨i, ops⟩ := by
  simp [parseCommand, hn, hw]

/-- A pseudo-instruction reads as the legal line it expands to (R89). -/
theorem parseCommand_pseudo {name : List Char} {ops : List LineOperand} {p : Pseudo}
    (hn : commandNames.lookup name = none) (hp : parsePseudo name ops = some p)
    (hw : (expandPseudo p).WellFormed = true) : parseCommand name ops = some (expandPseudo p) := by
  simp [parseCommand, hn, hp, hw]

theorem fits_buffer {a : Nat} (h : a < 2 ^ 64) :
    LineOperand.fits .dest (.buffer a) = true ∧ LineOperand.fits .src (.buffer a) = true :=
  ⟨decide_eq_true h, decide_eq_true h⟩

theorem fits_scalar {n : Nat} (h : n < 2 ^ 64) : LineOperand.fits .scalar (.scalar n) = true :=
  decide_eq_true h

/-- Every pseudo-instruction with 64-bit operands expands to a legal line (R89). -/
theorem wellFormed_expandPseudo {d a v : Nat} (hd : d < 2 ^ 64) (ha : a < 2 ^ 64) (hv : v < 2 ^ 64) :
    ∀ p ∈ [Pseudo.clr d, .mov d a, .ldi d v, .inc d a, .dec d a, .tstz a, .bitlen a],
      (expandPseudo p).WellFormed = true := by
  simp [expandPseudo, Line.WellFormed, ArgMap.used, Instr.argMap, fits_buffer hd, fits_buffer ha, fits_scalar hv,
    fits_scalar (n := 0), fits_scalar (n := 1), -List.all_eq_true]

/-- Every command has an operand (R85). -/
theorem operands_ne_nil {l : Line} (h : l.WellFormed = true) : l.operands ≠ [] := by
  have hu : l.instr.argMap.used.length ≠ 0 := by cases l.instr <;> decide
  rw [Line.WellFormed, Bool.and_eq_true, decide_eq_true_eq] at h
  exact List.ne_nil_of_length_pos (by omega)

/-! ### A line of text (R87) -/

/-- A word that can stand at the head of a command: no blank, no colon and no semicolon. -/
abbrev IsWord (w : List Char) : Prop := w ≠ [] ∧ w.all (fun c => !isBlank c && (c != ':' && c != ';')) = true

/-- A first word that a blank ends is no label. -/
theorem splitLabel_word {w : List Char} (hw : IsWord w) (rest : List Char) :
    splitLabel (w ++ ' ' :: rest) = (none, w ++ ' ' :: rest) := by
  have ht : (w ++ ' ' :: rest).takeWhile (fun c => !isBlank c && (c != ':' && c != ';')) = w :=
    takeWhile_word _ w ' ' rest (List.all_eq_true.1 hw.2) rfl
  simp [splitLabel, ht]

/-- A command line of text is read word by word: the mnemonic up to its blank, then the operands. -/
theorem parseLine_word {names : List (List Char × Nat)} {w r : List Char} {ops : List LineOperand} {l : Line}
    (hw : IsWord w) (hne : r ≠ []) (hh : ∀ c ∈ r.head?, isBlank c = false) (hl : ∀ c ∈ r.getLast?, isBlank c = false)
    (hs : ';' ∉ r) (ho : parseOperands names r = some ops) (hc : parseCommand w ops = some l) :
    parseLine names (w ++ ' ' :: r) = some { label := none, line := .command l } := by
  have hchar : ∀ c ∈ w, isBlank c = false ∧ c ≠ ':' ∧ c ≠ ';' := by simpa using hw.2
  have htrim : trimBlanks (w ++ ' ' :: r) = w ++ ' ' :: r := by
    refine trimBlanks_eq _ (fun c hc => ?_) fun c hc => ?_
    · rw [List.head?_append_of_ne_nil _ hw.1] at hc
      exact (hchar c (List.mem_of_mem_head? hc)).1
    · rw [List.getLast?_append_of_ne_nil _ (by simp), List.getLast?_cons_of_ne_nil hne] at hc
      exact hl c hc
  have hcomment : (w ++ ' ' :: r).takeWhile (· != ';') = w ++ ' ' :: r := by
    rw [List.takeWhile_eq_self_iff]
    intro c hc
    rcases List.mem_append.1 hc with hc | hc
    · simpa using (hchar c hc).2.2
    · rcases List.mem_cons.1 hc with rfl | hc
      · decide
      · simpa using fun e : c = ';' => hs (e ▸ hc)
  have hname : (w ++ ' ' :: r).takeWhile (fun c => !isBlank c) = w :=
    takeWhile_word _ w ' ' r (fun c hc => by simpa using (hchar c hc).1) rfl
  have hops : trimBlanks (' ' :: r) = r := by rw [trimBlanks_blank, trimBlanks_eq r hh hl]
  simp [parseLine, htrim, splitLabel_word hw, hcomment, hname, hops, ho, hc]

/-- A word and operands that give a command read as it, however the operands are written. -/
theorem readsAs_of_parseCommand {name : List Char} {ops : List LineOperand} {l : Line} (hw : IsWord name)
    (hne : ops ≠ []) (hc : parseCommand name ops = some l) : ReadsAs name ops l := by
  intro names texts h
  have ht : texts ≠ [] := by
    rintro rfl
    cases h
    exact hne rfl
  obtain ⟨⟨hh, hl, hr, hs⟩, hops, _⟩ := parseOperands_join names texts ops ht h
  exact parseLine_word hw hr hh hl hs (by rw [parseOperands, if_neg hr, hops]) hc

/-- A command read from a line of text was read from a mnemonic and its operands. -/
theorem parseCommand_of_parseLine {names : List (List Char × Nat)} {text : List Char} {label : Option (List Char)}
    {l : Line} (h : parseLine names text = some { label := label, line := .command l }) :
    ∃ name ops, parseCommand name ops = some l := by
  unfold parseLine at h
  split at h
  split at h
  · cases h
  · dsimp only at h
    split at h
    · cases h
    · split at h
      · cases h
      · obtain ⟨l', hl, e⟩ := Option.map_eq_some_iff.1 h
        cases e
        exact ⟨_, _, hl⟩

/-- The mnemonics of R81 are words, and each is looked up as its command. -/
theorem commandNames_lookup : ∀ row ∈ commandNames, IsWord row.1 ∧ commandNames.lookup row.1 = some row.2 := by
  decide

theorem readsAs_mnemonic {row : List Char × Instr} (hr : row ∈ commandNames) {ops : List LineOperand}
    (hw : Line.WellFormed ⟨row.2, ops⟩ = true) : ReadsAs row.1 ops ⟨row.2, ops⟩ := by
  obtain ⟨hword, hl⟩ := commandNames_lookup row hr
  exact readsAs_of_parseCommand hword (operands_ne_nil hw) (parseCommand_mnemonic hl hw)

/-- The name a pseudo-instruction is written with (R89). -/
def pseudoName : Pseudo → List Char
  | .clr _ => ['C', 'L', 'R']
  | .mov _ _ => ['M', 'O', 'V']
  | .ldi _ _ => ['L', 'D', 'I']
  | .inc _ _ => ['I', 'N', 'C']
  | .dec _ _ => ['D', 'E', 'C']
  | .tstz _ => ['T', 'S', 'T', 'Z']
  | .bitlen _ => ['B', 'I', 'T', 'L', 'E', 'N']

/-- The operands a pseudo-instruction is written with (R89). -/
def pseudoOperands : Pseudo → List LineOperand
  | .clr d => [.buffer d]
  | .mov d s => [.buffer d, .buffer s]
  | .ldi d v => [.buffer d, .scalar v]
  | .inc d a => [.buffer d, .buffer a]
  | .dec d a => [.buffer d, .buffer a]
  | .tstz a => [.buffer a]
  | .bitlen a => [.buffer a]

theorem parsePseudo_pseudoName (p : Pseudo) : parsePseudo (pseudoName p) (pseudoOperands p) = some p := by
  cases p <;> rfl

/-- The names of the pseudo-instructions are words, and none is a mnemonic of R81. -/
theorem pseudoName_lookup (p : Pseudo) : IsWord (pseudoName p) ∧ commandNames.lookup (pseudoName p) = none := by
  cases p <;> simp only [pseudoName] <;> decide

theorem readsAs_pseudo {p : Pseudo} (hw : (expandPseudo p).WellFormed = true) :
    ReadsAs (pseudoName p) (pseudoOperands p) (expandPseudo p) := by
  obtain ⟨hword, hl⟩ := pseudoName_lookup p
  have hne : pseudoOperands p ≠ [] := by cases p <;> exact List.cons_ne_nil _ _
  exact readsAs_of_parseCommand hword hne (parseCommand_pseudo hl (parsePseudo_pseudoName p) hw)

/-- Settles O27: legality from `parseCommand`, then the mnemonics, the pseudo-instructions and the operand forms. -/
theorem assembledLinesAreLegal : Obligations.AssembledLinesAreLegal := by
  refine ⟨fun names text label l h => ?_, fun row hr ops hw => readsAs_mnemonic hr hw, fun d a v hd ha hv => ?_,
    fun names name addr hn ht => parseOperand_name hn ht,
    fun names ds hne => parseOperand_number names (parseNumber_decimalDigits ds hne),
    fun names ds hne => parseOperand_number names (parseNumber_hexadecimalDigits ds hne)⟩
  · obtain ⟨name, ops, hl⟩ := parseCommand_of_parseLine h
    exact parseCommand_wellFormed hl
  · have hw := wellFormed_expandPseudo hd ha hv
    exact ⟨readsAs_pseudo (hw (.clr d) (by simp)), readsAs_pseudo (hw (.mov d a) (by simp)),
      readsAs_pseudo (hw (.ldi d v) (by simp)), readsAs_pseudo (hw (.inc d a) (by simp)),
      readsAs_pseudo (hw (.dec d a) (by simp)), readsAs_pseudo (hw (.tstz a) (by simp)),
      readsAs_pseudo (hw (.bitlen a) (by simp))⟩

end Sys2Proof.Machine

/-! Proofs of the state family: the step and the register window (R22 to R29, R35, R86, R262), host memory (R34, R67), command
lines (R88), and what a command's outcome depends on (R36). -/

namespace Sys2Proof.Machine

open Sys2Proof

/-! ### An accepted command and its company (R24, R67, R86, R265) -/

/-- The step of an accepted CMD write of a legal word is its command in progress with its company. -/
theorem step_accepted {s : State} {w : Word} {during : List Concurrent} {rest : List Event} {i : Instr}
    (h : CmdWriteNext s w during rest) (hi : decode w = .ok i) : step s = runDuring i during (s.accept w rest) := by
  have hf : s.status.fatal = false := h.2
  rw [step_cmd_write s w during rest h]
  simp [writeCmd, hf, hi, State.accept]

/-- Company that neither conflicts nor resets follows the command (log entry 6). -/
theorem runDuring_of_quiet {i : Instr} {during : List Concurrent} {s : State}
    (hc : ∀ c ∈ during, conflict i.argMap s c = none) (hr : Concurrent.reset ∉ during) :
    runDuring i during s = thenDo (exec i s) (runAll during) := by
  have hn : during.findSome? (conflict i.argMap s) = none := List.findSome?_eq_none_iff.2 hc
  simp [runDuring, hn, hr]

@[simp] theorem thenDo_runAll_nil (o : Out) : thenDo o (runAll []) = o := by
  cases o <;> rfl

/-- A command without company runs alone. -/
theorem step_accepted_alone {s : State} {w : Word} {rest : List Event} {i : Instr} (h : CmdWriteNext s w [] rest)
    (hi : decode w = .ok i) : step s = exec i (s.accept w rest) := by
  rw [step_accepted h hi, runDuring_of_quiet (by simp) (by simp), thenDo_runAll_nil]

/-- A CMD write put in front of the events by the thread that owns the argument registers is accepted (R24, R250). -/
theorem cmdWriteNext_of_cmdWrite {s : State} {thread : Nat} {w : Word} {rest : List Event}
    (hp : s.pending = cmdWrite s.platform thread w :: rest) (ho : s.argOwner.getD thread = thread)
    (hf : s.status.fatal = false) : CmdWriteNext s w [] rest :=
  ⟨⟨thread, hp, ho⟩, hf⟩

theorem getD_getD_self (o : Option Nat) (d : Nat) : o.getD (o.getD d) = o.getD d := by
  cases o <;> rfl

/-- The state `withFetchWord` makes is about to accept the word (log entry 1). -/
theorem cmdWriteNext_withFetchWord (s : State) (w : Word) (hf : s.status.fatal = false) :
    CmdWriteNext (s.withFetchWord 64 w.toNat) w [] s.pending := by
  refine cmdWriteNext_of_cmdWrite (thread := s.argOwner.getD 0) ?_ (getD_getD_self _ _) hf
  have hw : BitVec.ofNat 64 (w.toNat % 2 ^ 64) = w := by
    rw [Nat.mod_eq_of_lt w.isLt, BitVec.ofNat_toNat, BitVec.setWidth_eq]
  simp only [State.withFetchWord, hw]

/-- Settles O9: the accepted write puts the command in progress, and quiet company only follows it. -/
theorem stepRunsDecodedCommand : Obligations.StepRunsDecodedCommand := by
  refine ⟨fun s w rest i h hi => step_accepted_alone h hi, fun s w i hf hi => ?_, fun s w during rest i h hi hc hr => ?_⟩
  · exact step_accepted_alone (cmdWriteNext_withFetchWord s w hf) hi
  · rw [step_accepted h hi, runDuring_of_quiet hc hr]

/-! ### Resets (R35, R260, R262) -/

/-- Settles O17. -/
theorem resetClearsRegisters : Obligations.ResetClearsRegisters := by
  intro s rest hp
  exact ⟨{ s with pending := rest }.coreReset, (step_cons s .reset rest hp).trans rfl,
    rfl, rfl, rfl, rfl, rfl, rfl, rfl, rfl, rfl, rfl, rfl⟩

/-- A reset alone beside a command frees its destinations and resets the CORE; the command's body does not run (R262). -/
theorem runDuring_reset (i : Instr) (s : State) :
    runDuring i [.reset] s = .next (s.freeDests i.argMap).coreReset := rfl

/-- Settles O20: the destinations are freed in the accepted state, which has the registers and the memory of `s` but CMD. -/
theorem resetDuringCommandAbandonsIt : Obligations.ResetDuringCommandAbandonsIt := by
  intro s w rest i h hi
  have hdrawn := drawn_freeDests (s.accept w rest) i.argMap
  have hread := read_freeDests (s.accept w rest) i.argMap
  refine ⟨((s.accept w rest).freeDests i.argMap).coreReset, by rw [step_accepted h hi, runDuring_reset],
    rfl, rfl, rfl, rfl, rfl, rfl, rfl, ?_, ?_, ?_, hdrawn, hread⟩
  · exact State.freeDests_cfgVariant _ _
  · exact State.freeDests_platform _ _
  · exact State.freeDests_pending _ _

/-! ### The argument registers (R25) -/

/-- ARG j stands at offset 8 + 8*j (R22). -/
theorem regAt_arg (j : Fin 4) : regAt (8 + 8 * j.val) = some (.arg j) := by
  match j with | 0 | 1 | 2 | 3 => rfl

/-- The step of a host write to an ARG, with no other thread between its ARG writes and its CMD write (R25, R250). -/
theorem step_arg_write {s : State} {thread : Nat} {j : Fin 4} {v : Word} {rest : List Event}
    (hp : s.pending = argWrite s.platform thread j.val v :: rest) (ho : s.argOwner.getD thread = thread) :
    step s = .next { s.setArg j v with pending := rest, argOwner := some thread } := by
  rw [argWrite, Nat.add_assoc] at hp
  rw [step_write_register s thread _ (.arg j) v [] rest (regAt_arg j) hp]
  refine (if_pos ho).trans ?_
  match j with | 0 | 1 | 2 | 3 => rfl

theorem KeepsRest.arg {s t : State} (h : KeepsRest s t) (j : Fin 4) : t.arg j = s.arg j := by
  match j with
  | 0 => exact h.arg0
  | 1 => exact h.arg1
  | 2 => exact h.arg2
  | 3 => exact h.arg3

/-- A command changes nothing but memory, RES, STATUS and the draw counter (R235). -/
theorem exec_keepsRest {i : Instr} {s t : State} (h : exec i s = .next t) : KeepsRest s t := by
  rw [exec_eq_execute] at h
  obtain ⟨j, _, e⟩ | ⟨j, _, _, e⟩ | ⟨_, _, e⟩ | ⟨r, _, _, e⟩ := execute_cases i.argMap (bodyOf i) s <;>
    cases e.symm.trans h
  · exact raiseFatal_keepsRest _ _ _ _
  · exact raiseFatal_keepsRest _ _ _ _
  · exact raise_keepsRest _ _ _
  · exact complete_keepsRest _ _ _

/-- Settles O11: the ARG write's step says what it sets, and the frame of every command keeps the ARGs. -/
theorem argRegistersHoldHostValues : Obligations.ArgRegistersHoldHostValues := by
  refine ⟨fun s rest thread j v hp ho => ?_, fun s rest j hp => ?_, fun i s t h j => (exec_keepsRest h).arg j⟩
  · refine ⟨_, step_arg_write hp ho, fun k => State.arg_setArg s j k v, ?_⟩
    simp
  · rw [Nat.add_assoc] at hp
    exact ⟨_, step_read_register s _ (.arg j) rest (regAt_arg j) hp, rfl⟩

/-! ### STATUS and CFG (R28, R29, R31, R236) -/

theorem ErrCode.code_le (e : ErrCode) : e.code ≤ 4 := by
  cases e <;> decide

/-- The word of STATUS as a number: no field reaches into the next. -/
theorem Status.word_toNat (st : Status) :
    st.word.toNat = st.err.code + 16 * st.fatal.toNat + 256 * st.errArg.val := by
  have he := st.err.code_le
  have hf := st.fatal.toNat_le
  have hj := st.errArg.isLt
  rw [Status.word, BitVec.toNat_ofNat]
  omega

/-- The `len` bits of a word from bit `start` on, as a number. -/
theorem extractLsb'_eq_ofNat {n : Nat} (w : Word) (start len : Nat) (h : w.toNat / 2 ^ start % 2 ^ len = n) :
    w.extractLsb' start len = BitVec.ofNat len n := by
  apply BitVec.eq_of_toNat_eq
  rw [BitVec.extractLsb'_toNat, Nat.shiftRight_eq_div_pow, h, BitVec.toNat_ofNat, ← h, Nat.mod_mod]

/-- The bits of STATUS above ERRARG and between FATAL and ERRARG read 0 (R29). -/
theorem Status.reserved_eq_zero (st : Status) :
    st.word.extractLsb' 5 3 = 0 ∧ st.word.extractLsb' 10 54 = 0 := by
  have he := st.err.code_le
  have hf := st.fatal.toNat_le
  have hj := st.errArg.isLt
  have hw := st.word_toNat
  exact ⟨extractLsb'_eq_ofNat (n := 0) _ _ _ (by omega), extractLsb'_eq_ofNat (n := 0) _ _ _ (by omega)⟩

theorem cfgWord_reserved_eq_zero (v : Variant) : (cfgWord v).extractLsb' 1 63 = 0 := by
  cases v <;> rfl

/-- A host write to RES, STATUS or CFG without company only takes the event (R29). -/
theorem step_read_only_write {s : State} {thread off : Nat} {v : Word} {rest : List Event}
    (hoff : off = 0x28 ∨ off = 0x30 ∨ off = 0x38)
    (hp : s.pending = .write thread (s.platform.coreBase + off) (bytesLE 8 v.toNat) [] :: rest) :
    step s = .next { s with pending := rest } := by
  obtain rfl | rfl | rfl := hoff
  · exact step_write_register s thread _ .res v [] rest rfl hp
  · exact step_write_register s thread _ .status v [] rest rfl hp
  · exact step_write_register s thread _ .cfg v [] rest rfl hp

/-- Settles O12. -/
theorem readOnlyRegistersIgnoreWrites : Obligations.ReadOnlyRegistersIgnoreWrites := by
  refine ⟨fun s rest thread off v hoff hp => step_read_only_write hoff hp, fun s => ?_⟩
  obtain ⟨hlow, hhigh⟩ := s.status.reserved_eq_zero
  exact ⟨hlow, hhigh, cfgWord_reserved_eq_zero s.cfgVariant⟩

/-- ERR reads as its code (R28). -/
theorem Status.word_err (st : Status) : st.word.extractLsb' 0 4 = BitVec.ofNat 4 st.err.code := by
  have he := st.err.code_le
  have hw := st.word_toNat
  exact extractLsb'_eq_ofNat _ _ _ (by omega)

/-- ERRARG reads as the ARG's index (R28). -/
theorem Status.word_errArg (st : Status) : st.word.extractLsb' 8 2 = BitVec.ofNat 2 st.errArg.val := by
  have he := st.err.code_le
  have hf := st.fatal.toNat_le
  have hj := st.errArg.isLt
  have hw := st.word_toNat
  exact extractLsb'_eq_ofNat _ _ _ (by omega)

/-- FATAL reads as bit 4 (R28). -/
theorem Status.word_fatal (st : Status) : st.word.getLsbD 4 = st.fatal := by
  have he := st.err.code_le
  have hb : st.word.toNat / 2 ^ 4 % 2 = st.fatal.toNat := by
    have hf := st.fatal.toNat_le
    have hw := st.word_toNat
    omega
  rw [← BitVec.testBit_toNat, Nat.testBit_eq_decide_div_mod_eq, hb]
  cases st.fatal <;> rfl

/-- Settles O13. -/
theorem statusAndCfgLayout : Obligations.StatusAndCfgLayout := by
  refine ⟨fun st => ⟨?_, st.word_fatal, st.word_errArg⟩, rfl, rfl⟩
  rw [st.word_err]
  cases st.err <;> rfl

/-! ### Reading the window, and accesses it refuses (R22, R23) -/

/-- The registers of the window in R22's order. -/
theorem regAt_readReg {s : State} {off : Nat} {v : Word}
    (h : (off, v) ∈ [(0x00, s.cmd), (0x08, s.arg0), (0x10, s.arg1), (0x18, s.arg2), (0x20, s.arg3), (0x28, s.res),
      (0x30, s.status.word), (0x38, cfgWord s.cfgVariant)]) :
    ∃ r, regAt off = some r ∧ s.readReg r = v := by
  simp only [List.mem_cons, Prod.mk.injEq, List.not_mem_nil, or_false] at h
  obtain ⟨rfl, rfl⟩ | ⟨rfl, rfl⟩ | ⟨rfl, rfl⟩ | ⟨rfl, rfl⟩ | ⟨rfl, rfl⟩ | ⟨rfl, rfl⟩ | ⟨rfl, rfl⟩ | ⟨rfl, rfl⟩ := h <;>
    exact ⟨_, rfl, rfl⟩

/-- Settles O14. -/
theorem windowReadsRegisters : Obligations.WindowReadsRegisters := by
  intro s rest off v hp hv
  obtain ⟨r, hr, rfl⟩ := regAt_readReg hv
  exact step_read_register s off r rest hr hp

/-- Only eight bytes at a multiple of 8 reach a register of an aligned window (R22, R23). -/
theorem windowRegister_eq_none {p : Platform} {a n : Nat} (hb : p.coreBase % 64 = 0) (h : ¬ (n = 8 ∧ a % 8 = 0)) :
    windowRegister p a n = none := by
  rw [windowRegister]
  split
  · rename_i hn
    refine Option.eq_none_iff_forall_ne_some.2 fun r hr => ?_
    obtain ⟨h8, _⟩ := regAt_offset _ r hr
    omega
  · rfl

/-- A host access that meets the window and reaches no register is refused (R23). -/
theorem hostAccess_refused {s : State} {a n : Nat} (f : Reg → Out) (g : State → Out)
    (ho : overlapsWindow s.platform a n = true) (hr : windowRegister s.platform a n = none) :
    hostAccess s a n f g = .refused .windowAccess := by
  simp [hostAccess, ho, hr]

/-- Settles O15: such an access meets the window but reaches no register of it. -/
theorem oddWindowAccessIsRefused : Obligations.OddWindowAccessIsRefused := by
  intro s rest a n hb ha hlt hodd
  have ho : overlapsWindow s.platform a n = true := by simp [overlapsWindow, ha, hlt]
  have hr := windowRegister_eq_none hb hodd
  refine ⟨fun hp => ?_, ?_⟩
  · rw [step_cons s _ rest hp]
    exact hostAccess_refused (s := { s with pending := rest }) _ _ ho hr
  · rintro thread data during rfl hp
    rw [step_cons s _ rest hp]
    exact hostAccess_refused (s := { s with pending := rest }) _ _ ho hr

/-! ### Host memory (R34, R67) -/

/-- Settles O23: the store is one step, and the load reads the stored bytes back. -/
theorem hostStoreIsVisible : Obligations.HostStoreIsVisible := by
  intro s rest thread a data hin hw hp
  have hm : inMemory s.platform a data.length = true := decide_eq_true hin
  have hstore := step_write_memory s thread a data [] (.read a data.length :: rest) hw hm hp
  refine ⟨_, _, hstore, step_read_memory _ a data.length rest hw hm rfl, Memory.bytes_store _ _ _,
    rfl, rfl, fun _ => rfl, rfl, rfl, rfl, fun x hx => ?_⟩
  exact (Memory.read_store _ _ _ _).trans (if_neg hx)

/-! ### Command lines (R88) -/

/-- A legal line has at most four operands (R85, R87). -/
theorem length_operands_le {l : Line} (h : l.WellFormed = true) : l.operands.length ≤ 4 := by
  simp only [Line.WellFormed, Bool.and_eq_true, decide_eq_true_eq] at h
  exact h.1 ▸ List.length_filter_le _ _

theorem setArg_accept (s : State) (j : Fin 4) (v w : Word) (rest : List Event) :
    (s.setArg j v).accept w rest = (s.accept w rest).setArg j v := by
  match j with | 0 | 1 | 2 | 3 => rfl

/-- Writing ARGs and accepting a command touch different fields. -/
theorem setArgs_accept (s : State) (j : Nat) (ops : List LineOperand) (w : Word) (rest : List Event) :
    (setArgs s j ops).accept w rest = setArgs (s.accept w rest) j ops := by
  induction ops generalizing s j with
  | nil => rfl
  | cons o ops ih => rw [setArgs, ih, setArg_accept, setArgs]

theorem runSteps_one (s : State) : runSteps 1 s = step s := by
  rw [runSteps]
  cases step s <;> rfl

theorem decode_encode (i : Instr) : decode (encode i) = .ok i := by
  cases i <;> rfl

/-- The rest of a line from ARG j on: its remaining ARG writes, one a step, and then its command (R88). -/
theorem runSteps_lineEvents {i : Instr} {thread : Nat} {rest : List Event} (ops : List LineOperand) (s : State) (j : Nat)
    (hj : j + ops.length ≤ 4) (hf : s.status.fatal = false) (ho : s.argOwner.getD thread = thread)
    (hp : s.pending = argWrites s.platform thread j ops ++ cmdWrite s.platform thread (encode i) :: rest) :
    runSteps (ops.length + 1) s = exec i ((setArgs s j ops).accept (encode i) rest) := by
  induction ops generalizing s j with
  | nil =>
    have hstep : step s = exec i (s.accept (encode i) rest) :=
      step_accepted_alone (cmdWriteNext_of_cmdWrite hp ho hf) (decode_encode i)
    rw [List.length_nil, Nat.zero_add, runSteps_one, hstep, setArgs]
  | cons o ops ih =>
    rw [List.length_cons] at hj
    have hjv : (Fin.ofNat 4 j).val = j := Nat.mod_eq_of_lt (by omega)
    have hstep := step_arg_write (s := s) (thread := thread) (j := Fin.ofNat 4 j) (v := operandValue o)
      (by rw [hp, argWrites, hjv, List.cons_append]) ho
    rw [List.length_cons, runSteps, hstep, thenDo_of_next, ih _ (j + 1) (by omega) (by simpa using hf) (by simp) (by simp)]
    rw [setArgs_accept, setArgs, setArgs_accept]
    rfl

/-- Settles O25, by induction on the operands from ARG 0 on. -/
theorem lineRunsItsCommand : Obligations.LineRunsItsCommand := by
  intro s l thread rest hl hf ho hp
  rw [lineEvents, List.append_assoc] at hp
  exact runSteps_lineEvents l.operands s 0 (by simpa using length_operands_le hl) hf ho hp

end Sys2Proof.Machine

namespace Sys2Proof.Machine

open Sys2Proof

/-! ### The inputs of a command (R36) -/

/-- Two states give a command the same inputs (R36): VARIANT and the platform, the ARGs it uses, and the bytes of its source
buffers. -/
structure SameInputs (m : ArgMap) (s s' : State) : Prop where
  cfgVariant : s.cfgVariant = s'.cfgVariant
  platform : s.platform = s'.platform
  arg : ∀ j, m.kind j ≠ .unused → s.arg j = s'.arg j
  source : ∀ j, m.kind j = .src → ∀ a, InBuffer s j a → s.mem.read a = s'.mem.read a

/-- A buffer ARG is used (R85). -/
theorem kind_ne_unused_of_mem_buffers {m : ArgMap} {b : Fin 4 × AccessKind} (hb : b ∈ m.buffers) :
    m.kind b.1 ≠ .unused := by
  simp only [ArgMap.buffers, List.mem_filterMap, Option.map_eq_some_iff] at hb
  obtain ⟨j, _, k, hk, rfl⟩ := hb
  intro hu
  simp [hu, ArgKind.access] at hk

section
variable {m : ArgMap} {s s' : State} (h : SameInputs m s s')
include h

theorem SameInputs.addr {j : Fin 4} (hj : m.kind j ≠ .unused) : s.addr j = s'.addr j :=
  congrArg BitVec.toNat (h.arg j hj)

theorem SameInputs.addr_of_mem_buffers {b : Fin 4 × AccessKind} (hb : b ∈ m.buffers) : s.addr b.1 = s'.addr b.1 :=
  h.addr (kind_ne_unused_of_mem_buffers hb)

theorem SameInputs.addr_of_mem_dests {j : Fin 4} (hj : j ∈ m.dests) : s.addr j = s'.addr j :=
  h.addr_of_mem_buffers (mem_dests m j hj)

theorem SameInputs.firstMisaligned_eq : firstMisaligned m s = firstMisaligned m s' := by
  have hp : ∀ b ∈ m.buffers, s.misaligned b.1 = s'.misaligned b.1 := fun b hb => by
    rw [State.misaligned, State.misaligned, h.cfgVariant, h.addr_of_mem_buffers hb]
  rw [firstMisaligned, List.find?_congr hp, firstMisaligned]

theorem SameInputs.firstUnadmitted_eq : firstUnadmitted m s = firstUnadmitted m s' := by
  have hp : ∀ b ∈ m.buffers, s.unadmitted b = s'.unadmitted b := fun b hb => by
    rw [State.unadmitted, State.unadmitted, h.platform, h.addr_of_mem_buffers hb]
  rw [firstUnadmitted, List.find?_congr hp, firstUnadmitted]

/-- A source buffer holds the same value in both (R52). -/
theorem SameInputs.readWide_source {j : Fin 4} (hj : m.kind j = .src) :
    readWide s.mem (s.addr j) = readWide s'.mem (s'.addr j) := by
  rw [← h.addr (j := j) (by simp [hj])]
  exact readWide_congr _ _ _ fun k hk => h.source j hj _ ⟨Nat.le_add_right _ _, by omega⟩

theorem SameInputs.snapshot_eq : snapshot m s = snapshot m s' := by
  rw [snapshot, snapshot, Snapshot.mk.injEq]
  constructor
  · funext j
    exact ite_congr rfl h.readWide_source fun _ => rfl
  · funext j
    exact ite_congr rfl (fun hj => h.arg j (by simp [hj])) fun _ => rfl

/-- From the same inputs a command ends in the same way: in the same fatal error at the same ARG, in DIVIDE_BY_ZERO, or with
the same values (R36, R86). -/
theorem SameInputs.execute_cases (body : Snapshot → BodyOutcome) :
    (∃ code j, code ≠ .noError ∧ execute m body s = .next (s.raiseFatal code m j) ∧
      execute m body s' = .next (s'.raiseFatal code m j)) ∨
    (execute m body s = .next (s.raise .divideByZero 0) ∧ execute m body s' = .next (s'.raise .divideByZero 0)) ∨
    ∃ r, execute m body s = .next (complete m r s) ∧ execute m body s' = .next (complete m r s') := by
  have hm := h.firstMisaligned_eq
  have hu := h.firstUnadmitted_eq
  have hx := h.snapshot_eq
  obtain ⟨j, hj, e⟩ | ⟨j, hn, hj, e⟩ | ⟨hr, hb, e⟩ | ⟨r, hr, hb, e⟩ := Machine.execute_cases m body s
  · exact .inl ⟨.alignment, j, by simp, e, by simp [execute, ← hm, hj]⟩
  · exact .inl ⟨.busError, j, by simp, e, by simp [execute, ← hm, ← hu, hn, hj]⟩
  · obtain ⟨hn, hn'⟩ := (ready_iff m s).1 hr
    exact .inr (.inl ⟨e, by simp [execute, ← hm, ← hu, ← hx, hn, hn', hb]⟩)
  · obtain ⟨hn, hn'⟩ := (ready_iff m s).1 hr
    exact .inr (.inr ⟨r, e, by simp [execute, ← hm, ← hu, ← hx, hn, hn', hb]⟩)

end

/-! ### The destination bytes (R61, R62) -/

/-- A byte of the buffers written reads the same whatever memory was written over; any other reads as it did. -/
theorem read_writes_congr (f : Fin 4 → Nat) (v : Fin 4 → Wide) (l : List (Fin 4)) (m m' : Memory) (x : Nat)
    (h : (∃ j ∈ l, f j ≤ x ∧ x < f j + 64) ∨ m.read x = m'.read x) :
    (l.foldl (fun m j => writeWide m (f j) (v j)) m).read x = (l.foldl (fun m j => writeWide m (f j) (v j)) m').read x := by
  induction l generalizing m m' with
  | nil => exact h.resolve_left fun ⟨_, hj, _⟩ => nomatch hj
  | cons j l ih =>
    refine ih _ _ ?_
    rw [read_writeWide, read_writeWide]
    by_cases hx : f j ≤ x ∧ x < f j + 64
    · exact .inr (by rw [if_pos hx, if_pos hx])
    · rw [if_neg hx, if_neg hx]
      refine h.imp_left fun ⟨k, hk, hkx⟩ => ⟨k, (List.mem_cons.1 hk).resolve_left ?_, hkx⟩
      rintro rfl
      exact hx hkx

/-- A completed command leaves the same destination bytes wherever its inputs are the same (R36). -/
theorem SameInputs.complete_read {m : ArgMap} {s s' : State} (h : SameInputs m s s') (r : Result) {j : Fin 4} {a : Nat}
    (hj : j ∈ m.dests) (ha : InBuffer s j a) : (complete m r s).mem.read a = (complete m r s').mem.read a := by
  have hfold : (complete m r s').mem = m.dests.foldl (fun mem j => writeWide mem (s.addr j) (r.dest j)) s'.mem :=
    List.foldl_ext _ _ _ fun mem k hk => by rw [h.addr_of_mem_dests hk]
  rw [hfold]
  exact read_writes_congr _ _ _ _ _ _ (.inl ⟨j, hj, ha⟩)

/-- Settles O34: the two runs end in the same way, and each way of ending writes only what its inputs give. -/
theorem outcomeDependsOnlyOnInputs : Obligations.OutcomeDependsOnlyOnInputs := by
  intro i s s' t t' hv hp ha hm ht ht'
  have h : SameInputs i.argMap s s' := ⟨hv, hp, ha, hm⟩
  rw [exec_eq_execute] at ht ht'
  obtain ⟨code, j, hc, e, e'⟩ | ⟨e, e'⟩ | ⟨r, e, e'⟩ := h.execute_cases (bodyOf i) <;>
    cases e.symm.trans ht <;> cases e'.symm.trans ht'
  · exact ⟨rfl, rfl, fun hf => by simp [State.raiseFatal, State.raise, hf], fun hn => absurd hn hc⟩
  · exact ⟨rfl, rfl, fun hf => by simp [State.raise, hf], nofun⟩
  · exact ⟨rfl, rfl, fun hf => by simp [hf], fun _ => ⟨rfl, fun j hj a => h.complete_read r hj⟩⟩

end Sys2Proof.Machine

/-! Proofs of the memory family: byte order and buffers (R51 to R54), admission (R59), what may happen beside a command (R67,
R268, R269), and the two fatal errors of a buffer (R238, R239). -/

namespace Sys2Proof.Machine

open Sys2Proof

/-! ### Bytes and the numbers they write (R51) -/

/-- The number the bytes write is the sum of the bytes at their weights. -/
theorem ofBytesLE_eq_sum (bs : List Byte) :
    ofBytesLE bs = ((List.range bs.length).map fun k => (bs.getD k 0).toNat * 2 ^ (8 * k)).sum := by
  induction bs with
  | nil => rfl
  | cons b bs ih =>
    have hweight (k : Nat) : (2 : Nat) ^ (8 * (k + 1)) = 256 * 2 ^ (8 * k) := by ring
    rw [ofBytesLE, ih, ← List.sum_map_mul_left, List.length_cons, List.range_succ_eq_map]
    simp [hweight, Function.comp_def, Nat.mul_left_comm]

/-- Bytes are what the number they write gives back. -/
theorem bytesLE_ofBytesLE (bs : List Byte) : bytesLE bs.length (ofBytesLE bs) = bs := by
  refine List.ext_getElem (by simp) fun k _ hk => ?_
  simp [bytesLE, byteOf_ofBytesLE, hk]

section
variable {bs : List Byte} (h : bs.length = 8)
include h

/-- Eight bytes fit a word. -/
theorem toNat_ofNat_ofBytesLE : (BitVec.ofNat 64 (ofBytesLE bs)).toNat = ofBytesLE bs := by
  have hlt := ofBytesLE_lt bs
  rw [h] at hlt
  exact Nat.mod_eq_of_lt hlt

/-- Eight bytes are the bytes of the word they write. -/
theorem bytesLE_toNat_ofBytesLE : bytesLE 8 (BitVec.ofNat 64 (ofBytesLE bs)).toNat = bs := by
  rw [toNat_ofNat_ofBytesLE h, ← h, bytesLE_ofBytesLE]

/-- The word eight bytes write is their sum. -/
theorem toNat_ofBytesLE_eq_sum : (BitVec.ofNat 64 (ofBytesLE bs)).toNat =
    ((List.range 8).map fun k => (bs.getD k 0).toNat * 2 ^ (8 * k)).sum := by
  rw [toNat_ofNat_ofBytesLE h, ofBytesLE_eq_sum, h]

end

/-- MemRead as the sum of its bytes. -/
theorem memRead_eq_sum (m : Memory) (a n : Nat) :
    memRead m a n = ((List.range n).map fun k => (m.read (a + k)).toNat * 2 ^ (8 * k)).sum := by
  rw [memRead, ofBytesLE_eq_sum, Memory.length_bytes]
  refine congrArg List.sum (List.map_congr_left fun k hk => ?_)
  simp [Memory.bytes, List.mem_range.1 hk]

/-- Reading a byte after MemWrite. -/
theorem read_memWrite (m : Memory) (a n v x : Nat) :
    (memWrite m a n v).read x = if a ≤ x ∧ x < a + n then byteOf v (x - a) else m.read x := by
  rw [memWrite, Memory.read_store, length_bytesLE]
  exact ite_congr rfl (fun hx => getD_bytesLE n v _ (by omega)) fun _ => rfl

/-! ### What a CMD write leaves in CMD (R24) -/

/-- A command always ends in a next state (R230). -/
theorem exec_next (i : Instr) (s : State) : ∃ t, exec i s = .next t := by
  rw [exec_eq_execute]
  obtain ⟨_, _, e⟩ | ⟨_, _, _, e⟩ | ⟨_, _, e⟩ | ⟨_, _, _, e⟩ := execute_cases i.argMap (bodyOf i) s <;> exact ⟨_, e⟩

/-- An accepted CMD write without company sets CMD, whatever its word does (R24, R84). -/
theorem step_cmd_write_sets_cmd {s : State} {w : Word} {rest : List Event} (h : CmdWriteNext s w [] rest) :
    ∃ t, step s = .next t ∧ t.cmd = w := by
  match hd : decode w with
  | .ok i =>
    obtain ⟨t, ht⟩ := exec_next i (s.accept w rest)
    exact ⟨t, (step_accepted_alone h hd).trans ht, (exec_keepsRest ht).cmd⟩
  | .error e =>
    have hf : s.status.fatal = false := h.2
    refine ⟨(s.accept w rest).raise .illegalCommand 0, ?_, rfl⟩
    rw [step_cmd_write s w [] rest h]
    simp [writeCmd, hf, hd, runAll, State.accept]

/-- Settles O4: memory by its sums and stores, the window by the eight bytes of a word. -/
theorem byteOrderIsLittleEndian : Obligations.ByteOrderIsLittleEndian := by
  refine ⟨memRead_eq_sum, read_memWrite, fun s off r rest hr hp => ?_, fun s thread data rest hl hp ho hf => ?_,
    fun s j thread data rest hl hp ho => ?_⟩
  · exact ⟨_, step_read_register s off r rest hr hp, List.map_congr_left fun k _ => byteOf_toNat _ k⟩
  · rw [← bytesLE_toNat_ofBytesLE hl] at hp
    obtain ⟨t, ht, hcmd⟩ := step_cmd_write_sets_cmd ⟨⟨thread, hp, ho⟩, hf⟩
    exact ⟨t, ht, by rw [hcmd, toNat_ofBytesLE_eq_sum hl]⟩
  · rw [← bytesLE_toNat_ofBytesLE hl] at hp
    refine ⟨_, step_arg_write hp ho, ?_⟩
    rw [← toNat_ofBytesLE_eq_sum hl]
    exact congrArg BitVec.toNat ((State.arg_setArg s j j _).trans (if_pos rfl))

/-! ### Buffers (R52 to R54) -/

/-- Settles O5. -/
theorem bufferLayout : Obligations.BufferLayout := by
  intro m a i k hi hk
  have hdiv : (8 * i + k) / 8 = i := by omega
  have hmod : (8 * i + k) % 8 = k := by omega
  rw [Nat.add_assoc, ← bufferByte_readWide m a (8 * i + k) (by omega), bufferByte, hdiv, hmod]

/-- Settles O6. -/
theorem bufferWriteReadsBack : Obligations.BufferWriteReadsBack := fun m a v =>
  ⟨readWide_writeWide_same m a v, fun x hx => (read_writeWide m a v x).trans (if_neg hx)⟩

/-! ### Ranges that share a byte, and admission (R59, R67) -/

/-- Two nonempty ranges overlap exactly if they share a byte. -/
theorem overlaps_iff {a n b k : Nat} (hn : 0 < n) (hk : 0 < k) :
    overlaps a n b k = true ↔ ∃ x, (a ≤ x ∧ x < a + n) ∧ b ≤ x ∧ x < b + k := by
  simp only [overlaps, Bool.and_eq_true, decide_eq_true_eq]
  exact ⟨fun _ => ⟨max a b, by omega, by omega⟩, fun ⟨x, _, _⟩ => by omega⟩

/-- The register window is a range of 64 bytes (R22). -/
theorem overlapsWindow_eq_overlaps (p : Platform) (a n : Nat) : overlapsWindow p a n = overlaps a n p.coreBase 64 := by
  simp only [overlapsWindow, overlaps, ← Nat.lt_succ_iff]

/-- Settles O8: the window check fails exactly at a byte the buffer shares with the window. -/
theorem admissionRule : Obligations.AdmissionRule := by
  intro p a k
  have hpos : 0 < 2 ^ p.addrWidth := Nat.two_pow_pos _
  have hmem : inMemory p a 64 = true ↔ a + 63 ≤ 2 ^ p.addrWidth - 1 := by
    rw [inMemory, decide_eq_true_eq]
    omega
  have hwindow : overlapsWindow p a 64 = false ↔ ∀ x, a ≤ x → x ≤ a + 63 → ¬ (p.coreBase ≤ x ∧ x ≤ p.coreBase + 63) := by
    rw [overlapsWindow_eq_overlaps, ← Bool.not_eq_true, overlaps_iff (by decide) (by decide), not_exists]
    exact forall_congr' fun x => by omega
  rw [admitted, Bool.and_eq_true, Bool.and_eq_true, Bool.not_eq_true', hmem, hwindow]

/-! ### Conflicts while a command is in progress (R67, R268, R269) -/

/-- Company of one thing that conflicts is refused. -/
theorem runDuring_conflict {i : Instr} {c : Concurrent} {s : State} {r : Refusal} (h : conflict i.argMap s c = some r) :
    runDuring i [c] s = .refused r := by
  simp [runDuring, h]

/-- An access shares a byte with a buffer (R52). -/
theorem overlaps_of_inBuffer {s : State} {a n x : Nat} {j : Fin 4} (h₁ : a ≤ x) (h₂ : x < a + n) (hx : InBuffer s j x) :
    overlaps a n (s.addr j) 64 = true :=
  (overlaps_iff (by omega) (by decide)).2 ⟨x, ⟨h₁, h₂⟩, hx⟩

section
variable {m : ArgMap} {s : State}

theorem conflict_write {a x : Nat} {data : List Byte} {b : Fin 4 × AccessKind} (hb : b ∈ m.buffers) (h₁ : a ≤ x)
    (h₂ : x < a + data.length) (hx : InBuffer s b.1 x) : conflict m s (.write a data) = some .concurrentAccess :=
  if_pos (List.any_eq_true.2 ⟨b, hb, overlaps_of_inBuffer h₁ h₂ hx⟩)

theorem conflict_read {a n x : Nat} {j : Fin 4} (hj : j ∈ m.dests) (h₁ : a ≤ x) (h₂ : x < a + n) (hx : InBuffer s j x) :
    conflict m s (.read a n) = some .concurrentAccess :=
  if_pos (List.any_eq_true.2 ⟨j, hj, overlaps_of_inBuffer h₁ h₂ hx⟩)

theorem conflict_remap {regions : List Region} {b : Fin 4 × AccessKind} (hb : b ∈ m.buffers)
    (h : admitted { s.platform with regions := regions } (s.addr b.1) b.2 ≠ admitted s.platform (s.addr b.1) b.2) :
    conflict m s (.remap regions) = some .admissionChanged := by
  have hany : (m.buffers.any fun b => admitted { s.platform with regions := regions } (s.addr b.1) b.2 !=
      admitted s.platform (s.addr b.1) b.2) = true := List.any_eq_true.2 ⟨b, hb, bne_iff_ne.2 h⟩
  exact if_pos hany

/-- A read of at least one byte, none of them in a destination, is no conflict. -/
theorem conflict_read_eq_none {a n : Nat} (hn : 0 < n) (h : ∀ j ∈ m.dests, ∀ x, a ≤ x → x < a + n → ¬ InBuffer s j x) :
    conflict m s (.read a n) = none := by
  refine if_neg fun hany => ?_
  obtain ⟨j, hj, ho⟩ := List.any_eq_true.1 hany
  obtain ⟨x, ⟨h₁, h₂⟩, hx⟩ := (overlaps_iff hn (by decide)).1 ho
  exact h j hj x h₁ h₂ hx

end

/-- Another agent's read of memory outside the window changes nothing (R67). -/
theorem runConcurrent_read {s : State} {a n : Nat} (hin : a + n ≤ 2 ^ s.platform.addrWidth)
    (hw : overlapsWindow s.platform a n = false) : runConcurrent (.read a n) s = .next s := by
  have hm : inMemory s.platform a n = true := decide_eq_true hin
  simp [runConcurrent, hw, memoryAccess, hm]

/-- Such a read after a command leaves the command's outcome. -/
theorem exec_thenDo_read (i : Instr) {s : State} {a n : Nat} (hin : a + n ≤ 2 ^ s.platform.addrWidth)
    (hw : overlapsWindow s.platform a n = false) : thenDo (exec i s) (runAll [.read a n]) = exec i s := by
  obtain ⟨t, ht⟩ := exec_next i s
  have hp := (exec_keepsRest ht).platform
  have hread : runConcurrent (.read a n) t = .next t := runConcurrent_read (hp ▸ hin) (hp ▸ hw)
  rw [ht, thenDo_of_next, runAll, hread, thenDo_of_next, runAll]

/-- Settles O21: the accepted command meets its company in a state with the platform and the ARGs of `s`. -/
theorem conflictsDuringCommandAreRefused : Obligations.ConflictsDuringCommandAreRefused := by
  intro s w rest i c h hi
  rw [step_accepted h hi]
  refine ⟨?_, ?_, ?_, ?_⟩
  · rintro a data j k x rfl hb h₁ h₂ hx
    exact runDuring_conflict (conflict_write hb h₁ h₂ hx)
  · rintro a n j x rfl hj h₁ h₂ hx
    exact runDuring_conflict (conflict_read hj h₁ h₂ hx)
  · rintro regions j k rfl hb hne
    exact runDuring_conflict (conflict_remap hb hne)
  · rintro a n rfl hn hin hw hout
    have hquiet : conflict i.argMap (s.accept w rest) (.read a n) = none := conflict_read_eq_none hn hout
    rw [runDuring_of_quiet (by simpa using hquiet) (by simp), exec_thenDo_read i (s := s.accept w rest) hin hw]

/-! ### The fatal errors of a buffer (R238, R239) -/

/-- The buffers stand in increasing ARG order (R86). -/
theorem pairwise_buffers (m : ArgMap) : m.buffers.Pairwise fun b c => b.1 < c.1 := by
  have hargs : [0, 1, 2, 3].Pairwise fun j k : Fin 4 => j < k := by decide
  refine List.pairwise_filterMap.2 (hargs.imp fun {j k} hjk b hb c hc => ?_)
  obtain ⟨_, _, rfl⟩ := Option.map_eq_some_iff.1 hb
  obtain ⟨_, _, rfl⟩ := Option.map_eq_some_iff.1 hc
  exact hjk

/-- In a list in increasing ARG order the first entry to fail a check is the one no lower ARG's entry fails. -/
theorem find?_eq_some_of_lowest {l : List (Fin 4 × AccessKind)} (hl : l.Pairwise fun b c => b.1 < c.1)
    {p : Fin 4 × AccessKind → Bool} {b : Fin 4 × AccessKind} (hb : b ∈ l) (hp : p b = true)
    (hlow : ∀ c ∈ l, c.1 < b.1 → p c = false) : l.find? p = some b := by
  induction l with
  | nil => cases hb
  | cons c l ih =>
    obtain ⟨hc, hl⟩ := List.pairwise_cons.1 hl
    rcases List.mem_cons.1 hb with rfl | hb
    · exact List.find?_cons_of_pos hp
    · have hpc : p c = false := hlow c List.mem_cons_self (hc b hb)
      rw [List.find?_cons_of_neg (by simp [hpc])]
      exact ih hl hb fun d hd => hlow d (List.mem_cons_of_mem c hd)

/-- The ARG the alignment check reports is the lowest misaligned one (R238). -/
theorem firstMisaligned_of_lowest {m : ArgMap} {s : State} {j : Fin 4} (h : LowestMisaligned s m.buffers j) :
    firstMisaligned m s = some j := by
  obtain ⟨hv, ⟨k, hk⟩, hj, hlow⟩ := h
  rw [firstMisaligned, find?_eq_some_of_lowest (pairwise_buffers m) hk ((misaligned_iff s j).2 ⟨hv, hj⟩), Option.map_some]
  intro b hb hlt
  simp [State.misaligned, hlow b hb hlt]

/-- The ARG the admission check reports is the lowest one not admitted (R239). -/
theorem firstUnadmitted_of_lowest {m : ArgMap} {s : State} {j : Fin 4} (h : LowestUnadmitted s m.buffers j) :
    firstUnadmitted m s = some j := by
  obtain ⟨-, ⟨k, hk, hj⟩, hlow⟩ := h
  rw [firstUnadmitted, find?_eq_some_of_lowest (pairwise_buffers m) hk (by simp [State.unadmitted, hj]), Option.map_some]
  intro b hb hlt
  simp [State.unadmitted, hlow b hb hlt]

/-- No buffer breaks the alignment rule exactly when each is aligned or VARIANT is SCALAR (R56, R57). -/
theorem firstMisaligned_eq_none_iff (m : ArgMap) (s : State) :
    firstMisaligned m s = none ↔ ∀ b ∈ m.buffers, s.cfgVariant = .vector → s.addr b.1 % 64 = 0 := by
  simp [firstMisaligned, misaligned_iff]

/-- A command that ends in `raiseFatal` has the effects of R238 and R239. -/
theorem endsFatal_of_raiseFatal {i : Instr} {s : State} {code : ErrCode} {j : Fin 4} (hc : code.isFatal = true)
    (h : exec i s = .next (s.raiseFatal code i.argMap j)) : EndsFatal i s i.argMap.dests code j := by
  refine ⟨_, h, ?_, State.freeDests_res s _, raiseFatal_keepsRest s code _ j, drawn_freeDests s _,
    read_freeDests s _⟩
  simp [State.raiseFatal, State.raise, hc]

/-- Under SCALAR no command ends in ALIGNMENT (R57). -/
theorem err_ne_alignment_of_scalar {i : Instr} {s t : State} (hv : s.cfgVariant = .scalar) (h : exec i s = .next t) :
    t.status.err ≠ .alignment := by
  have hn : firstMisaligned i.argMap s = none := (firstMisaligned_eq_none_iff _ s).2 fun _ _ h => by simp [hv] at h
  rw [exec_eq_execute] at h
  obtain ⟨j, hj, _⟩ | ⟨j, _, _, e⟩ | ⟨_, _, e⟩ | ⟨r, _, _, e⟩ := execute_cases i.argMap (bodyOf i) s
  · simp [hn] at hj
  all_goals
    cases e.symm.trans h
    simp [State.raiseFatal]

/-- Settles O28: the alignment check comes first and reports the lowest ARG. -/
theorem misalignedBufferEndsInAlignment : Obligations.MisalignedBufferEndsInAlignment := by
  refine ⟨fun i s j h => endsFatal_of_raiseFatal rfl ?_, fun i s t => err_ne_alignment_of_scalar⟩
  rw [exec_eq_execute, execute, firstMisaligned_of_lowest h]

/-- Settles O29: with the alignment check passed, the admission check reports the lowest ARG. -/
theorem unadmittedBufferEndsInBusError : Obligations.UnadmittedBufferEndsInBusError := by
  intro i s j h
  have hn : firstMisaligned i.argMap s = none := (firstMisaligned_eq_none_iff _ s).2 h.1
  refine endsFatal_of_raiseFatal rfl ?_
  rw [exec_eq_execute, execute, hn, firstUnadmitted_of_lowest h]

end Sys2Proof.Machine

/-! Proofs of the encoding family: the command word (R80, R81, R84, R88), illegal words (R243), and the pseudo-instructions
(R89). -/

namespace Sys2Proof.Machine

open Sys2Proof

/-! ### The command word (R80, R81) -/

/-- The opcode map gives an OPC to one command only (R81). -/
theorem decodeOpc_eq_some_iff {opc : BitVec 8} {i : Instr} : decodeOpc opc = some i ↔ opc = i.opc := by
  constructor
  · intro h
    unfold decodeOpc at h
    split at h <;> cases h <;> exact BitVec.eq_of_toNat_eq ‹_›
  · rintro rfl
    cases i <;> rfl

/-- A word is its OPC extended by zeros exactly if RSVD is 0 (R80). -/
theorem eq_setWidth_iff {w : Word} {opc : BitVec 8} : w = opc.setWidth 64 ↔ rsvdField w = 0 ∧ opcField w = opc := by
  have hz : BitVec.toNat (0 : BitVec 56) = 0 := rfl
  simp only [rsvdField, opcField, BitVec.toNat_eq, BitVec.extractLsb'_toNat, BitVec.toNat_setWidth, hz,
    Nat.shiftRight_eq_div_pow]
  omega

/-- The words of a command: RSVD is 0 and OPC is the command's (R84). -/
theorem decode_eq_ok_iff {w : Word} {i : Instr} : decode w = .ok i ↔ rsvdField w = 0 ∧ opcField w = i.opc := by
  rw [← decodeOpc_eq_some_iff, decode]
  by_cases hr : rsvdField w = 0
  · rw [if_pos hr, and_iff_right hr]
    cases decodeOpc (opcField w) <;> simp
  · rw [if_neg hr]
    exact iff_of_false nofun fun h => hr h.1

/-- A command has one word only, its encoding (R88). -/
theorem decode_eq_ok_iff_eq_encode {w : Word} {i : Instr} : decode w = .ok i ↔ w = encode i :=
  decode_eq_ok_iff.trans eq_setWidth_iff.symm

/-- A stream that begins with the bytes of a word is decoded as the word, and the rest is left (R51, R80). -/
theorem decodeBytes_bytesLE_append (w : Word) (rest : List Byte) :
    decodeBytes (bytesLE 8 w.toNat ++ rest) = (decode w).map fun i => (i, rest) := by
  have hl : (bytesLE 8 w.toNat).length = 8 := length_bytesLE 8 _
  rw [decodeBytes, if_neg (by simp), List.take_left' hl, List.drop_left' hl, ofNat_ofBytesLE_bytesLE]

/-- Settles O1: the eight bytes of an encoding are its word, and the fields of a word determine its command. -/
theorem decodeEncodeAgree : Obligations.DecodeEncodeAgree := by
  refine fun i => ⟨fun rest => ?_, fun w => decode_eq_ok_iff_eq_encode⟩
  rw [encodeBytes, decodeBytes_bytesLE_append, decode_encode]
  rfl

/-- Settles O2: each word is the encoding of its command. -/
theorem sampleWordsDecode : Obligations.SampleWordsDecode :=
  ⟨decode_encode .sets, decode_encode .sub, decode_encode .xor, decode_encode .shl, decode_encode .lsb, decode_encode .div⟩

/-! ### Illegal words (R84, R243) -/

/-- The OPC values the map assigns (R81). -/
def assignedOpcs : List (BitVec 8) :=
  [0x01, 0x02, 0x03, 0x04, 0x05, 0x10, 0x11, 0x12, 0x13, 0x20, 0x21, 0x22, 0x23, 0x30, 0x31, 0x40, 0x41, 0x50, 0x51, 0x52]

/-- The assigned OPC values are those of the commands. -/
theorem mem_assignedOpcs_iff {opc : BitVec 8} : opc ∈ assignedOpcs ↔ ∃ i : Instr, opc = i.opc := by
  constructor
  · intro h
    have hsome : ∀ opc ∈ assignedOpcs, (decodeOpc opc).isSome := by decide
    obtain ⟨i, hi⟩ := Option.isSome_iff_exists.1 (hsome opc h)
    exact ⟨i, decodeOpc_eq_some_iff.1 hi⟩
  · rintro ⟨i, rfl⟩
    cases i <;> decide

/-- A word is illegal exactly if RSVD is nonzero or OPC is unassigned (R84). -/
theorem illegal_iff {w : Word} : (∀ i, decode w ≠ .ok i) ↔ rsvdField w ≠ 0 ∨ opcField w ∉ assignedOpcs := by
  rw [mem_assignedOpcs_iff, ← not_exists, ← not_and_or, ← exists_and_left]
  simp only [decode_eq_ok_iff]

/-- The step of an accepted CMD write of an illegal word records ILLEGAL_COMMAND and does nothing else (R243). -/
theorem step_illegal {s : State} {w : Word} {rest : List Event} (h : CmdWriteNext s w [] rest)
    (hw : ∀ i, decode w ≠ .ok i) : step s = .next ((s.accept w rest).raise .illegalCommand 0) := by
  have hf : s.status.fatal = false := h.2
  rw [step_cmd_write s w [] rest h]
  cases hd : decode w with
  | ok i => exact absurd hd (hw i)
  | error e => simp [writeCmd, hf, hd, runAll, State.accept]

/-- Settles O3: the fields of an illegal word, and the frame of recording an error. -/
theorem illegalWordEndsInIllegalCommand : Obligations.IllegalWordEndsInIllegalCommand := by
  refine ⟨fun w => illegal_iff, fun s w rest h hw => ?_⟩
  have hf : (s.accept w rest).status.fatal = false := h.2
  refine ⟨_, step_illegal h hw, rfl, ?_, rfl, rfl, raise_keepsRest _ _ _, rfl⟩
  simp [State.raise, hf, ErrCode.isFatal]

/-! ### Pseudo-instructions (R89) -/

/-- Settles O26. -/
theorem pseudoInstructionsExpand : Obligations.PseudoInstructionsExpand := fun _ _ _ hd ha hv =>
  ⟨wellFormed_expandPseudo hd ha hv, rfl, rfl, rfl, rfl, rfl, rfl, rfl⟩

end Sys2Proof.Machine

/-! Proofs of the primitives family: ZERO, COPY and SETS (R101 to R103), and the comparisons CMP and CMPS with their laws
(R104 to R106). -/

namespace Sys2Proof.Machine

open Sys2Proof

/-! ### Completing with the values of a body (R30, R86) -/

/-- A command whose one destination is at ARG0 completes with its body's value there and its body's RES. -/
theorem completes_of_one {i : Instr} {s : State} {d : Wide} {res : Word} {post : State → Prop}
    (hd : i.argMap.dests = [0]) (h : BuffersReady s i.argMap.buffers)
    (hb : bodyOf i (snapshot i.argMap s) = .one d res) (hp : ∀ t : State, t.wide 0 = d → t.res = res → post t) :
    Completes i s [0] post :=
  hd ▸ completes_of_ready i s post _ h hb (hp _ (wide_complete_one _ _ s hd) rfl)

/-- A command without a destination completes with its body's RES. -/
theorem completes_of_resOnly {i : Instr} {s : State} {res : Word} {post : State → Prop} (hd : i.argMap.dests = [])
    (h : BuffersReady s i.argMap.buffers) (hb : bodyOf i (snapshot i.argMap s) = .resOnly res)
    (hp : ∀ t : State, t.res = res → post t) : Completes i s [] post :=
  hd ▸ completes_of_ready i s post _ h hb (hp _ rfl)

/-! ### ZERO, COPY and SETS (R101 to R103) -/

/-- Settles O35: the value written has eight zero limbs. -/
theorem zeroClearsBuffer : Obligations.ZeroClearsBuffer := by
  refine ⟨rfl, fun s h => completes_of_one rfl h rfl fun t hw hr => ⟨fun i hi => ?_, hr⟩⟩
  rw [hw, limb_ofLimbs _ rfl i hi]
  exact List.getD_replicate _ hi

/-- Settles O36: the snapshot holds the source's value from before the destination is written (R60). -/
theorem copyCopiesBuffer : Obligations.CopyCopiesBuffer :=
  ⟨rfl, fun _ h => completes_of_one rfl h rfl fun _ hw hr => ⟨hw, hr⟩⟩

/-- A scalar extended by zeros has no limb above limb 7 (R14). -/
theorem limb_zextWide_of_lt (v : Word) {i : Nat} (hi : i < 7) : limb (zextWide v) i = 0 := by
  rw [limb_zextWide v i (by omega), if_neg (by omega)]

theorem limb_zextWide_seven (v : Word) : limb (zextWide v) 7 = v := limb_zextWide v 7 (by decide)

/-- Settles O37: the value written is the zero extension of ARG1. -/
theorem setsLoadsScalar : Obligations.SetsLoadsScalar := by
  refine ⟨rfl, fun s h => completes_of_one (d := zextWide s.arg1) rfl h rfl fun t hw hr => ?_⟩
  rw [hw]
  exact ⟨fun _ hi => limb_zextWide_of_lt _ hi, limb_zextWide_seven _, hr⟩

/-! ### Comparing limbs (R104) -/

/-- The first unequal limb decides. -/
theorem compareLimbs_of_first_ne {xs ys : List Limb} {k : Nat} (hx : k < xs.length) (hy : k < ys.length)
    (he : ∀ i < k, xs.getD i 0 = ys.getD i 0) (hn : xs.getD k 0 ≠ ys.getD k 0) :
    compareLimbs xs ys = if xs.getD k 0 < ys.getD k 0 then -1 else 1 := by
  induction xs generalizing ys k with
  | nil => simp at hx
  | cons x xs ih =>
    cases ys with
    | nil => simp at hy
    | cons y ys =>
      cases k with
      | zero => exact if_pos hn
      | succ k =>
        have hxy : x = y := he 0 (Nat.succ_pos k)
        rw [compareLimbs, if_neg (not_not.2 hxy)]
        exact ih (Nat.lt_of_succ_lt_succ hx) (Nat.lt_of_succ_lt_succ hy) (fun i hi => he (i + 1) (Nat.succ_lt_succ hi)) hn

theorem compareLimbs_self (xs : List Limb) : compareLimbs xs xs = 0 := by
  induction xs with
  | nil => rfl
  | cons x xs ih => rw [compareLimbs, if_neg (not_not.2 rfl), ih]

theorem compareWide_of_first_ne {x y : Wide} {k : Nat} (hk : k < 8) (he : ∀ i < k, limb x i = limb y i)
    (hn : limb x k ≠ limb y k) : compareWide x y = if limb x k < limb y k then -1 else 1 := by
  rw [← getD_limbs x k hk, ← getD_limbs y k hk] at hn ⊢
  refine compareLimbs_of_first_ne (by simpa) (by simpa) (fun i hi => ?_) hn
  rw [getD_limbs x i (by omega), getD_limbs y i (by omega), he i hi]

theorem compareWide_of_limbs_eq {x y : Wide} (h : ∀ i < 8, limb x i = limb y i) : compareWide x y = 0 := by
  rw [eq_of_limbs x y h]
  exact compareLimbs_self _

/-! ### Comparing with a scalar (R105) -/

theorem compareScalar_of_high_ne {x : Wide} (v : Word) (h : ∃ i < 7, limb x i ≠ 0) : compareScalar x v = 1 :=
  if_pos (by simpa using h)

theorem compareScalar_of_high_eq {x : Wide} (v : Word) (h : ∀ i < 7, limb x i = 0) :
    compareScalar x v = if limb x 7 < v then -1 else if limb x 7 = v then 0 else 1 :=
  if_neg (by simpa using h)

/-- Comparing with a scalar is comparing with its zero extension: the first nonzero limb among 0..6 is the first unequal
one, and without one limb 7 decides (R106). -/
theorem compareScalar_eq_compareWide (x : Wide) (v : Word) : compareScalar x v = compareWide x (zextWide v) := by
  by_cases h : ∃ i, i < 7 ∧ limb x i ≠ 0
  · obtain ⟨hlt, hne⟩ := Nat.find_spec h
    have hz := limb_zextWide_of_lt v hlt
    have hfirst : ∀ i < Nat.find h, limb x i = limb (zextWide v) i := fun i hi => by
      rw [limb_zextWide_of_lt v (hi.trans hlt)]
      exact not_not.1 fun hn => Nat.find_min h hi ⟨hi.trans hlt, hn⟩
    rw [compareScalar_of_high_ne v h, compareWide_of_first_ne (by omega) hfirst (by rwa [hz]), hz]
    exact (if_neg BitVec.not_lt_zero).symm
  · have hx : ∀ i < 7, limb x i = 0 := by simpa using h
    have hlow : ∀ i < 7, limb x i = limb (zextWide v) i := fun i hi => by rw [hx i hi, limb_zextWide_of_lt v hi]
    have hv := limb_zextWide_seven v
    rw [compareScalar_of_high_eq v hx]
    by_cases h7 : limb x 7 = v
    · have hall : ∀ i < 8, limb x i = limb (zextWide v) i := fun i hi => by
        obtain hi | rfl : i < 7 ∨ i = 7 := by omega
        · exact hlow i hi
        · rw [h7, hv]
      rw [if_neg (by simp [h7]), if_pos h7, compareWide_of_limbs_eq hall]
    · rw [if_neg h7, compareWide_of_first_ne (by decide) hlow (by rwa [hv]), hv]

/-! ### CMP and CMPS (R104, R105) -/

theorem resOfInt_neg_one : resOfInt (-1) = 0xFFFFFFFFFFFFFFFF#64 := rfl
theorem resOfInt_zero : resOfInt 0 = 0 := rfl
theorem resOfInt_one : resOfInt 1 = 1 := rfl

/-- Settles O38: the first unequal limb decides the comparison, and RES is its two's complement (R27). -/
theorem cmpComparesLimbs : Obligations.CmpComparesLimbs := by
  refine ⟨rfl, fun s h => completes_of_resOnly (res := resOfInt (compareWide (s.wide 0) (s.wide 1))) rfl h rfl
    fun t hr => ⟨fun k hk he hn => ?_, fun he => ?_⟩⟩
  · rw [hr, compareWide_of_first_ne hk he hn, apply_ite resOfInt, resOfInt_neg_one, resOfInt_one]
  · rw [hr, compareWide_of_limbs_eq he, resOfInt_zero]

/-- Settles O39: a nonzero limb above limb 7 decides, otherwise limb 7 does. -/
theorem cmpsComparesScalar : Obligations.CmpsComparesScalar := by
  refine ⟨rfl, fun s h => completes_of_resOnly (res := resOfInt (compareScalar (s.wide 0) s.arg1)) rfl h rfl
    fun t hr => ⟨fun hx => ?_, fun hx => ?_⟩⟩
  · rw [hr, compareScalar_of_high_ne _ hx, resOfInt_one]
  · rw [hr, compareScalar_of_high_eq _ hx, apply_ite resOfInt, apply_ite resOfInt, resOfInt_neg_one, resOfInt_zero,
      resOfInt_one]

/-! ### Comparison of magnitudes (R106) -/

theorem natOfLimbs_cons (l : Limb) (ls : List Limb) :
    natOfLimbs (l :: ls) = l.toNat * 2 ^ (64 * ls.length) + natOfLimbs ls := by
  induction ls using List.reverseRecOn with
  | nil => simp [natOfLimbs]
  | append_singleton ls k ih =>
    rw [← List.cons_append, natOfLimbs_append, natOfLimbs_append, ih, List.length_append, List.length_singleton,
      Nat.mul_add, Nat.pow_add]
    ring

theorem natOfLimbs_lt (ls : List Limb) : natOfLimbs ls < 2 ^ (64 * ls.length) := by
  rw [natOfLimbs_eq, ← List.length_reverse]
  exact natOfLimbsLE_lt _

/-- The most significant limb outweighs all those below it. -/
theorem natOfLimbs_lt_of_head_lt {x y : Limb} {xs ys : List Limb} (hl : xs.length = ys.length) (h : x < y) :
    natOfLimbs (x :: xs) < natOfLimbs (y :: ys) := by
  have hx : natOfLimbs xs < 2 ^ (64 * ys.length) := hl ▸ natOfLimbs_lt xs
  calc natOfLimbs (x :: xs) = x.toNat * 2 ^ (64 * ys.length) + natOfLimbs xs := by rw [natOfLimbs_cons, hl]
    _ < (x.toNat + 1) * 2 ^ (64 * ys.length) := by rw [Nat.add_one_mul x.toNat]; exact Nat.add_lt_add_left hx _
    _ ≤ y.toNat * 2 ^ (64 * ys.length) := Nat.mul_le_mul_right _ h
    _ ≤ natOfLimbs (y :: ys) := by rw [natOfLimbs_cons]; exact Nat.le_add_right _ _

/-- The comparison of limbs is the sign of the difference of the numbers they write. -/
theorem compareLimbs_eq_sign {xs ys : List Limb} (hl : xs.length = ys.length) :
    compareLimbs xs ys = ((natOfLimbs xs : Int) - natOfLimbs ys).sign := by
  induction xs generalizing ys with
  | nil =>
    rw [List.eq_nil_of_length_eq_zero hl.symm]
    rfl
  | cons x xs ih =>
    cases ys with
    | nil => cases hl
    | cons y ys =>
      have hl' : xs.length = ys.length := Nat.succ.inj hl
      rw [compareLimbs]
      by_cases e : x = y
      · subst e
        rw [if_neg (not_not.2 rfl), ih hl', natOfLimbs_cons, natOfLimbs_cons, hl', Nat.cast_add, Nat.cast_add,
          add_sub_add_left_eq_sub]
      · rw [if_pos e]
        by_cases h : x < y
        · have := natOfLimbs_lt_of_head_lt hl' h
          rw [if_pos h, Int.sign_eq_neg_one_of_neg (by omega)]
        · have := natOfLimbs_lt_of_head_lt hl'.symm (BitVec.lt_of_le_ne (BitVec.not_lt.1 h) (Ne.symm e))
          rw [if_neg h, Int.sign_eq_one_of_pos (by omega)]

theorem compareWide_eq_sign (x y : Wide) : compareWide x y = ((x.toNat : Int) - y.toNat).sign := by
  rw [compareWide, compareLimbs_eq_sign (by simp), natOfLimbs_limbs, natOfLimbs_limbs]

theorem sign_natCast_sub (m n : Nat) : ((m : Int) - n).sign = if m < n then -1 else if m = n then 0 else 1 := by
  obtain h | rfl | h := lt_trichotomy m n
  · rw [if_pos h, Int.sign_eq_neg_one_of_neg (by omega)]
  · simp
  · rw [if_neg h.not_gt, if_neg h.ne', Int.sign_eq_one_of_pos (by omega)]

/-- Settles O40: the comparison is the sign of the difference of the magnitudes. -/
theorem comparisonLaws : Obligations.ComparisonLaws := by
  refine fun x y v => ⟨?_, ?_, compareLimbs_self _, compareScalar_eq_compareWide x v⟩
  · rw [compareWide_eq_sign, sign_natCast_sub]
  · rw [compareWide_eq_sign, compareWide_eq_sign y x, ← Int.sign_neg, neg_sub]

end Sys2Proof.Machine

/-! Proofs of the additive family: ADD, ADDS, SUB and SUBS (R121 to R124), and their integer laws (R125). -/

namespace Sys2Proof.Machine

open Sys2Proof

/-! ### The exact identities determine the results (R125)

A value and a carry or borrow that meet the exact identity are those of the closed form, so they are the engine's. -/

/-- A number below the modulus and a carry that write a sum are its remainder and its overflow. -/
theorem sum_of_exact {m d n : Nat} {c : Bool} (hd : d < m) (h : d + m * c.toNat = n) :
    d = n % m ∧ c = decide (m ≤ n) := by
  subst h
  rw [Nat.add_mul_mod_self_left, Nat.mod_eq_of_lt hd]
  cases c with
  | false => simpa using hd
  | true => simp

/-- A number below the modulus and a borrow that meet SUB's exact identity are the wrapped difference and the
comparison. -/
theorem difference_of_exact {m d x y : Nat} {w : Bool} (hd : d < m) (h : d + y = x + m * w.toNat) :
    (d : Int) = (x - y : Int) % m ∧ w = decide (x < y) := by
  have e : (x - y : Int) = d - m * w.toNat := by
    have : (d + y : Int) = x + m * w.toNat := by exact_mod_cast h
    linarith
  rw [e, Int.sub_mul_emod_self_left, Int.emod_eq_of_lt (Int.natCast_nonneg d) (Int.ofNat_lt.2 hd)]
  cases w with
  | false =>
    rw [Bool.toNat_false, Nat.mul_zero] at h
    exact ⟨rfl, (decide_eq_false (by omega)).symm⟩
  | true =>
    rw [Bool.toNat_true, Nat.mul_one] at h
    exact ⟨rfl, (decide_eq_true (by omega)).symm⟩

theorem addWide_eq_of_exact {x y d : Wide} {c : Bool} (h : d.toNat + 2 ^ 512 * c.toNat = x.toNat + y.toNat) :
    addWide x y = (d, c) := by
  obtain ⟨hd, hc⟩ := sum_of_exact d.isLt h
  obtain ⟨hd', hc'⟩ := sum_of_exact (addWide x y).1.isLt (addWide_exact x y)
  exact Prod.ext (BitVec.eq_of_toNat_eq (hd'.trans hd.symm)) (hc'.trans hc.symm)

theorem subWide_eq_of_exact {x y d : Wide} {w : Bool} (h : d.toNat + y.toNat = x.toNat + 2 ^ 512 * w.toNat) :
    subWide x y = (d, w) := by
  obtain ⟨hd, hw⟩ := difference_of_exact d.isLt h
  obtain ⟨hd', hw'⟩ := difference_of_exact (subWide x y).1.isLt (subWide_exact x y)
  exact Prod.ext (BitVec.eq_of_toNat_eq (Int.ofNat_inj.1 (hd'.trans hd.symm))) (hw'.trans hw.symm)

theorem addWide_zero (x : Wide) : addWide x 0 = (x, false) :=
  addWide_eq_of_exact (by rw [Bool.toNat_false, Nat.mul_zero, BitVec.ofNat_eq_ofNat, BitVec.toNat_zero])

theorem subWide_zero (x : Wide) : subWide x 0 = (x, false) :=
  subWide_eq_of_exact (by rw [Bool.toNat_false, Nat.mul_zero, BitVec.ofNat_eq_ofNat, BitVec.toNat_zero])

/-- Subtracting undoes adding: the exact identity of the sum is also that of the difference back. -/
theorem subWide_addWide (x y : Wide) : subWide (addWide x y).1 y = (x, (addWide x y).2) :=
  subWide_eq_of_exact (addWide_exact x y).symm

/-! ### Sum and difference in closed form (R121, R123) -/

theorem resOfBit_decide (p : Prop) [Decidable p] : resOfBit (decide p) = if p then 1 else 0 := by
  simp [resOfBit]

theorem addWide_closed (x y : Wide) : (addWide x y).1.toNat = (x.toNat + y.toNat) % 2 ^ 512 ∧
    resOfBit (addWide x y).2 = if 2 ^ 512 ≤ x.toNat + y.toNat then 1 else 0 := by
  obtain ⟨hd, hc⟩ := sum_of_exact (addWide x y).1.isLt (addWide_exact x y)
  exact ⟨hd, by rw [hc, resOfBit_decide]⟩

theorem subWide_closed (x y : Wide) :
    ((subWide x y).1.toNat : Int) = (x.toNat - y.toNat : Int) % 2 ^ 512 ∧
      resOfBit (subWide x y).2 = if x.toNat < y.toNat then 1 else 0 := by
  obtain ⟨hd, hw⟩ := difference_of_exact (subWide x y).1.isLt (subWide_exact x y)
  rw [Nat.cast_pow, Nat.cast_ofNat] at hd
  exact ⟨hd, by rw [hw, resOfBit_decide]⟩

/-! ### The scalar forms (R122, R124) -/

theorem limbNat_zextWide (v : Word) {i : Nat} (hi : i < 8) : limbNat (zextWide v) i = scalarLimbNat v i := by
  rw [limbNat, limb_zextWide v i hi, apply_ite BitVec.toNat]
  rfl

/-- A ripple reads its second operand at limbs 7 to 0 only. -/
theorem AddRipple.congr_right {x y y' : Nat → Nat} {d : Wide} {out : Nat} (hr : AddRipple x y d out)
    (h : ∀ i < 8, y i = y' i) : AddRipple x y' d out := by
  obtain ⟨c, h₀, h₈, hc⟩ := hr
  exact ⟨c, h₀, h₈, fun k hk => h (7 - k) (by omega) ▸ hc k hk⟩

/-- A ripple reads its second operand at limbs 7 to 0 only. -/
theorem SubRipple.congr_right {x y y' : Nat → Nat} {d : Wide} {out : Nat} (hr : SubRipple x y d out)
    (h : ∀ i < 8, y i = y' i) : SubRipple x y' d out := by
  obtain ⟨w, h₀, h₈, hw⟩ := hr
  exact ⟨w, h₀, h₈, fun k hk => h (7 - k) (by omega) ▸ hw k hk⟩

theorem addScalar_ripple (x : Wide) (v : Word) :
    AddRipple (limbNat x) (scalarLimbNat v) (addScalar x v).1 (resOfBit (addScalar x v).2).toNat := by
  rw [addScalar_eq]
  exact (addWide_ripple x (zextWide v)).congr_right fun _ => limbNat_zextWide v

theorem subScalar_ripple (x : Wide) (v : Word) :
    SubRipple (limbNat x) (scalarLimbNat v) (subScalar x v).1 (resOfBit (subScalar x v).2).toNat := by
  rw [subScalar_eq]
  exact (subWide_ripple x (zextWide v)).congr_right fun _ => limbNat_zextWide v

theorem addScalar_closed (x : Wide) (v : Word) : (addScalar x v).1.toNat = (x.toNat + v.toNat) % 2 ^ 512 ∧
    resOfBit (addScalar x v).2 = if 2 ^ 512 ≤ x.toNat + v.toNat then 1 else 0 := by
  rw [addScalar_eq, ← zextWide_toNat v]
  exact addWide_closed x (zextWide v)

theorem subScalar_closed (x : Wide) (v : Word) :
    ((subScalar x v).1.toNat : Int) = (x.toNat - v.toNat : Int) % 2 ^ 512 ∧
      resOfBit (subScalar x v).2 = if x.toNat < v.toNat then 1 else 0 := by
  rw [subScalar_eq, ← zextWide_toNat v]
  exact subWide_closed x (zextWide v)

/-! ### ADD, ADDS, SUB and SUBS -/

/-- Settles O41: the value written and RES are those of the carry chain. -/
theorem addAddsWithCarry : Obligations.AddAddsWithCarry := by
  refine ⟨rfl, fun s h => completes_of_one rfl h rfl fun t hw hr => ?_⟩
  rw [hw, hr]
  exact ⟨addWide_ripple _ _, addWide_closed _ _⟩

/-- Settles O42: the scalar form is ADD with the zero extension of ARG2. -/
theorem addsAddsScalarWithCarry : Obligations.AddsAddsScalarWithCarry := by
  refine ⟨rfl, fun s h => completes_of_one rfl h rfl fun t hw hr => ?_⟩
  rw [hw, hr]
  exact ⟨addScalar_ripple _ _, addScalar_closed _ _⟩

/-- Settles O43: the value written and RES are those of the borrow chain. -/
theorem subSubtractsWithBorrow : Obligations.SubSubtractsWithBorrow := by
  refine ⟨rfl, fun s h => completes_of_one rfl h rfl fun t hw hr => ?_⟩
  rw [hw, hr]
  exact ⟨subWide_ripple _ _, subWide_closed _ _⟩

/-- Settles O44: the scalar form is SUB with the zero extension of ARG2. -/
theorem subsSubtractsScalarWithBorrow : Obligations.SubsSubtractsScalarWithBorrow := by
  refine ⟨rfl, fun s h => completes_of_one rfl h rfl fun t hw hr => ?_⟩
  rw [hw, hr]
  exact ⟨subScalar_ripple _ _, subScalar_closed _ _⟩

/-- Settles O45: the scalar identities are those of the zero extension. -/
theorem additiveLaws : Obligations.AdditiveLaws := by
  intro x y v
  have hadd := (addWide_exact x y).symm
  have hadds := (addWide_exact x (zextWide v)).symm
  have hsub := (subWide_exact x y).symm
  have hsubs := (subWide_exact x (zextWide v)).symm
  rw [Nat.mul_comm] at hadd hadds hsub hsubs
  rw [zextWide_toNat, ← addScalar_eq] at hadds
  rw [zextWide_toNat, ← subScalar_eq] at hsubs
  exact ⟨hadd, hadds, hsub, hsubs, addWide_zero x, subWide_zero x, subWide_addWide x y⟩

end Sys2Proof.Machine

/-! Proofs of the logical family: AND, OR and XOR (R141 to R143), NOT (R144), and the laws of limb-by-limb logic (R140,
R145). -/

namespace Sys2Proof.Machine

open Sys2Proof

/-! ### The operators on whole values, limb by limb (R140) -/

theorem limb_and (x y : Wide) (i : Nat) : limb (x &&& y) i = limb x i &&& limb y i := BitVec.extractLsb'_and ..

theorem limb_or (x y : Wide) (i : Nat) : limb (x ||| y) i = limb x i ||| limb y i := BitVec.extractLsb'_or ..

theorem limb_xor (x y : Wide) (i : Nat) : limb (x ^^^ y) i = limb x i ^^^ limb y i := BitVec.extractLsb'_xor ..

/-- Each limb lies inside the value, so complementing the value complements the limb. -/
theorem limb_not (x : Wide) (i : Nat) : limb (~~~x) i = ~~~limb x i := by
  apply BitVec.eq_of_getLsbD_eq
  intro b hb
  have hlt : 64 * (7 - i) + b < 512 := by omega
  rw [limb_getLsbD _ _ _ hb, BitVec.getLsbD_not, BitVec.getLsbD_not, limb_getLsbD _ _ _ hb, decide_eq_true hlt,
    decide_eq_true hb]

/-- A value with the operator's limbs is what the limbwise operator gives. -/
theorem limbwise_eq_of_limb {f : Limb → Limb → Limb} {x y z : Wide}
    (h : ∀ i, limb z i = f (limb x i) (limb y i)) : limbwise f x y = z :=
  eq_of_limbs _ _ fun i hi => by rw [limb_limbwise f x y i hi, h]

theorem limbwise_and (x y : Wide) : limbwise (fun p q => p &&& q) x y = x &&& y := limbwise_eq_of_limb (limb_and x y)

theorem limbwise_or (x y : Wide) : limbwise (fun p q => p ||| q) x y = x ||| y := limbwise_eq_of_limb (limb_or x y)

theorem limbwise_xor (x y : Wide) : limbwise (fun p q => p ^^^ q) x y = x ^^^ y := limbwise_eq_of_limb (limb_xor x y)

/-- XOR with all ones complements each limb (R144), so the whole value. -/
theorem notWide_eq_not (x : Wide) : notWide x = ~~~x :=
  eq_of_limbs _ _ fun i hi => by
    rw [limb_notWide x i hi, limb_not]
    exact BitVec.xor_allOnes

theorem notWide_toNat (x : Wide) : (notWide x).toNat = 2 ^ 512 - 1 - x.toNat := by
  rw [notWide_eq_not, BitVec.toNat_not]

/-! ### AND, OR, XOR and NOT -/

/-- A command whose body is a limbwise operator on the buffers at ARG1 and ARG2 completes with the operator's limbs at
ARG0 and RES 0. -/
theorem completes_of_limbwise {i : Instr} {s : State} {f : Limb → Limb → Limb} (hd : i.argMap.dests = [0])
    (h : BuffersReady s i.argMap.buffers)
    (hb : bodyOf i (snapshot i.argMap s) = .one (limbwise f (s.wide 1) (s.wide 2)) 0) :
    Completes i s [0] fun t =>
      (∀ k < 8, limb (t.wide 0) k = f (limb (s.wide 1) k) (limb (s.wide 2) k)) ∧ t.res = 0 := by
  refine completes_of_one hd h hb fun t hw hr => ?_
  rw [hw]
  exact ⟨fun k hk => limb_limbwise f _ _ k hk, hr⟩

/-- Settles O46: the three bodies are one limbwise body at three operators. -/
theorem binaryLogicIsLimbwise : Obligations.BinaryLogicIsLimbwise :=
  ⟨rfl, rfl, rfl, fun _ h =>
    ⟨completes_of_limbwise rfl h rfl, completes_of_limbwise rfl h rfl, completes_of_limbwise rfl h rfl⟩⟩

/-- Settles O47: the value written is the complement of the source's value. -/
theorem notComplements : Obligations.NotComplements := by
  refine ⟨rfl, fun s h => completes_of_one (d := notWide (s.wide 1)) rfl h rfl fun t hw hr => ?_⟩
  rw [hw]
  exact ⟨fun i hi => limb_notWide _ i hi, notWide_toNat _, hr⟩

/-- Settles O48: on whole values the laws of R145 are those of the bitwise operators. -/
theorem logicLaws : Obligations.LogicLaws := fun x y => by
  refine ⟨limbwise_and x y, limbwise_or x y, limbwise_xor x y, notWide_eq_not x, ?_, ?_, ?_⟩
  · rw [limbwise_and, notWide_eq_not, BitVec.and_not_self]
  · rw [limbwise_or, notWide_eq_not, BitVec.or_not_self]
  · rw [limbwise_xor, BitVec.xor_self, BitVec.ofNat_eq_ofNat]

end Sys2Proof.Machine

/-! Proofs of the shift family: SHR and SHL (R161, R162), their limb-level form (R163) and their laws (R165). -/

namespace Sys2Proof.Machine

open Sys2Proof

/-! ### The shifts on whole values (R160)

A shift of all 512 bits gives 0, so the test for a large count drops out. -/

theorem shrWide_eq_ushiftRight (x : Wide) (n : Word) : shrWide x n = x >>> n.toNat :=
  ite_eq_right_iff.2 fun h => (BitVec.ushiftRight_eq_zero h).symm

theorem shlWide_eq_shiftLeft (x : Wide) (n : Word) : shlWide x n = x <<< n.toNat :=
  ite_eq_right_iff.2 fun h => (BitVec.shiftLeft_eq_zero h).symm

/-! ### SHR and SHL -/

/-- Settles O49: the value written is the body's shift, a division. -/
theorem shrShiftsRight : Obligations.ShrShiftsRight := by
  refine ⟨rfl, fun s h => completes_of_one (d := shrWide (s.wide 1) s.arg2) rfl h rfl fun t hw hr => ?_⟩
  rw [hw]
  exact ⟨shrWide_toNat _ _, hr⟩

/-- Settles O50: the value written is the body's shift, a multiplication. -/
theorem shlShiftsLeft : Obligations.ShlShiftsLeft := by
  refine ⟨rfl, fun s h => completes_of_one (d := shlWide (s.wide 1) s.arg2) rfl h rfl fun t hw hr => ?_⟩
  rw [hw]
  exact ⟨shlWide_toNat _ _, hr⟩

/-! ### A shift by whole limbs, then by the bits within a limb (R163) -/

theorem limb_ushiftRight_getLsbD (x : Wide) (n i : Nat) {b : Nat} (hb : b < 64) :
    (limb (x >>> n) i).getLsbD b = x.getLsbD (n + (64 * (7 - i) + b)) := by
  rw [limb_getLsbD _ _ _ hb, BitVec.getLsbD_ushiftRight]

/-- Each limb lies inside the value, so only the bits shifted in at the bottom are 0 by the shift. -/
theorem limb_shiftLeft_getLsbD (x : Wide) (n i : Nat) {b : Nat} (hb : b < 64) :
    (limb (x <<< n) i).getLsbD b = (!decide (64 * (7 - i) + b < n) && x.getLsbD (64 * (7 - i) + b - n)) := by
  have hlt : 64 * (7 - i) + b < 512 := by omega
  rw [limb_getLsbD _ _ _ hb, BitVec.getLsbD_shiftLeft, decide_eq_true hlt, Bool.true_and]

/-- Shifting right by whole limbs moves each limb to a higher index. -/
theorem limb_ushiftRight_limbs (x : Wide) (w : Nat) {i : Nat} (hi : i < 8) :
    limb (x >>> (64 * w)) i = if w ≤ i then limb x (i - w) else 0 := by
  apply BitVec.eq_of_getLsbD_eq
  intro b hb
  rw [limb_ushiftRight_getLsbD _ _ _ hb]
  split
  · rw [limb_getLsbD _ _ _ hb]
    congr 1
    omega
  · rw [BitVec.getLsbD_of_ge x _ (by omega)]
    exact BitVec.getLsbD_zero.symm

/-- Shifting left by whole limbs moves each limb to a lower index. -/
theorem limb_shiftLeft_limbs (x : Wide) (w : Nat) {i : Nat} (hi : i < 8) :
    limb (x <<< (64 * w)) i = if i + w < 8 then limb x (i + w) else 0 := by
  apply BitVec.eq_of_getLsbD_eq
  intro b hb
  rw [limb_shiftLeft_getLsbD _ _ _ hb]
  split
  · rw [limb_getLsbD _ _ _ hb, decide_eq_false (by omega), Bool.not_false, Bool.true_and]
    congr 1
    omega
  · rw [decide_eq_true (by omega), Bool.not_true, Bool.false_and]
    exact BitVec.getLsbD_zero.symm

/-- Shifting right by fewer bits than a limb has: the low bits of the limb above, which a shift by a whole limb brings to
the same index, enter at the top. -/
theorem limb_ushiftRight_bits (x : Wide) (i : Nat) {r : Nat} (hr : r < 64) :
    limb (x >>> r) i = limb x i >>> r ||| if r ≠ 0 then limb (x >>> 64) i <<< (64 - r) else 0 := by
  split
  · apply BitVec.eq_of_getLsbD_eq
    intro b hb
    rw [limb_ushiftRight_getLsbD _ _ _ hb, BitVec.getLsbD_or, BitVec.getLsbD_ushiftRight, BitVec.getLsbD_shiftLeft,
      decide_eq_true hb, Bool.true_and]
    by_cases h : b < 64 - r
    · rw [limb_getLsbD _ _ _ (by omega), decide_eq_true h, Bool.not_true, Bool.false_and, Bool.or_false]
      congr 1
      omega
    · rw [BitVec.getLsbD_of_ge (limb x i) _ (by omega), limb_ushiftRight_getLsbD _ _ _ (by omega),
        decide_eq_false h, Bool.not_false, Bool.true_and, Bool.false_or]
      congr 1
      omega
  · have h : r = 0 := by omega
    rw [h, BitVec.ushiftRight_zero, BitVec.ushiftRight_zero]
    exact BitVec.or_zero.symm

/-- Shifting left by fewer bits than a limb has: the high bits of the limb below, which a shift by a whole limb brings to
the same index, enter at the bottom. -/
theorem limb_shiftLeft_bits (x : Wide) (i : Nat) {r : Nat} (hr : r < 64) :
    limb (x <<< r) i = limb x i <<< r ||| if r ≠ 0 then limb (x <<< 64) i >>> (64 - r) else 0 := by
  split
  · apply BitVec.eq_of_getLsbD_eq
    intro b hb
    rw [limb_shiftLeft_getLsbD _ _ _ hb, BitVec.getLsbD_or, BitVec.getLsbD_ushiftRight, BitVec.getLsbD_shiftLeft,
      decide_eq_true hb, Bool.true_and]
    by_cases h : b < r
    · have hiff : 64 * (7 - i) + b < r ↔ 64 * (7 - i) + (64 - r + b) < 64 := by omega
      rw [limb_shiftLeft_getLsbD x 64 i (by omega), decide_eq_true h, decide_eq_decide.2 hiff, Bool.not_true,
        Bool.false_and, Bool.false_or]
      congr 2
      omega
    · rw [BitVec.getLsbD_of_ge (limb (x <<< 64) i) _ (by omega), limb_getLsbD _ _ _ (by omega), decide_eq_false h,
        decide_eq_false (by omega), Bool.not_false, Bool.true_and, Bool.true_and, Bool.or_false]
      congr 1
      omega
  · have h : r = 0 := by omega
    rw [h, BitVec.shiftLeft_zero, BitVec.shiftLeft_zero]
    exact BitVec.or_zero.symm

/-- Settles O51: a count is a shift by whole limbs, then one within a limb. -/
theorem shiftLimbForm : Obligations.ShiftLimbForm := by
  intro x n i hi
  have hr : n.toNat % 64 < 64 := Nat.mod_lt _ (by decide)
  have hn : n.toNat = 64 * (n.toNat / 64) + n.toNat % 64 := (Nat.div_add_mod _ _).symm
  constructor
  · have hs : shrWide x n = x >>> (64 * (n.toNat / 64)) >>> (n.toNat % 64) := by
      rw [shrWide_eq_ushiftRight, ← BitVec.shiftRight_add, ← hn]
    rw [hs, limb_ushiftRight_bits _ _ hr, limb_ushiftRight_limbs _ _ hi, ← BitVec.shiftRight_add, ← Nat.mul_add_one,
      limb_ushiftRight_limbs _ _ hi, Nat.sub_add_eq]
  · have hs : shlWide x n = x <<< (64 * (n.toNat / 64)) <<< (n.toNat % 64) := by
      rw [shlWide_eq_shiftLeft, ← BitVec.shiftLeft_add, ← hn]
    rw [hs, limb_shiftLeft_bits _ _ hr, limb_shiftLeft_limbs _ _ hi, ← BitVec.shiftLeft_add, ← Nat.mul_add_one,
      limb_shiftLeft_limbs _ _ hi, Nat.add_assoc]

/-! ### Shifting back and forth, and composing counts (R165) -/

/-- Right then left clears the low bits: dividing and multiplying back drops the remainder. -/
theorem shlWide_shrWide_toNat (x : Wide) (n : Word) :
    (shlWide (shrWide x n) n).toNat = x.toNat - x.toNat % 2 ^ n.toNat := by
  rw [shlWide_toNat, shrWide_toNat, Nat.div_mul_self_eq_mod_sub_self]
  exact Nat.mod_eq_of_lt (Nat.lt_of_le_of_lt (Nat.sub_le _ _) x.isLt)

/-- Left then right clears the high bits, those the truncation to 512 bits drops. -/
theorem shrWide_shlWide_toNat (x : Wide) {n : Word} (hn : n.toNat ≤ 512) :
    (shrWide (shlWide x n) n).toNat = x.toNat % 2 ^ (512 - n.toNat) := by
  rw [shrWide_toNat, shlWide_toNat, ← Nat.pow_sub_mul_pow 2 hn, Nat.mul_mod_mul_right,
    Nat.mul_div_cancel _ (Nat.two_pow_pos _)]

theorem shrWide_shrWide (x : Wide) {m n : Word} (h : m.toNat + n.toNat < 2 ^ 64) :
    shrWide (shrWide x m) n = shrWide x (m + n) := by
  rw [shrWide_eq_ushiftRight, shrWide_eq_ushiftRight, shrWide_eq_ushiftRight, BitVec.toNat_add_of_lt h,
    BitVec.shiftRight_add]

theorem shlWide_shlWide (x : Wide) {m n : Word} (h : m.toNat + n.toNat < 2 ^ 64) :
    shlWide (shlWide x m) n = shlWide x (m + n) := by
  rw [shlWide_eq_shiftLeft, shlWide_eq_shiftLeft, shlWide_eq_shiftLeft, BitVec.toNat_add_of_lt h,
    BitVec.shiftLeft_add]

theorem shrWide_zero (x : Wide) : shrWide x 0 = x :=
  (shrWide_eq_ushiftRight x 0).trans (BitVec.ushiftRight_zero x)

theorem shrWide_width (x : Wide) : shrWide x 512 = 0 :=
  (shrWide_eq_ushiftRight x 512).trans (BitVec.ushiftRight_eq_zero (Nat.le_refl 512))

/-- Settles O52. -/
theorem shiftLaws : Obligations.ShiftLaws := fun x _ _ =>
  ⟨fun h => ⟨shlWide_shrWide_toNat x _, shrWide_shlWide_toNat x h.le⟩, shrWide_zero x, shrWide_width x,
    fun h => ⟨shrWide_shrWide x h, shlWide_shlWide x h⟩⟩

end Sys2Proof.Machine

/-! Proofs of the bit-scan family: MSB and LSB (R181, R182), and their laws (R183). -/

namespace Sys2Proof.Machine

open Sys2Proof

/-! ### The position by limb and bit (R181, R182) -/

theorem ne_zero_of_getLsbD {w : Nat} {v : BitVec w} {b : Nat} (h : v.getLsbD b = true) : v ≠ 0#w := by
  rintro rfl
  rw [BitVec.getLsbD_zero] at h
  exact Bool.false_ne_true h

/-- The first nonzero limb from limb 0 on and its highest set bit give the position. -/
theorem msbWide_of_limb {x : Wide} {i h : Nat} (hi : i < 8) (hh : h < 64) (hz : ∀ k < i, limb x k = 0)
    (hb : (limb x i).getLsbD h = true) (ha : ∀ b, h < b → (limb x i).getLsbD b = false) :
    msbWide x = (64 * (7 - i) + h : Nat) := by
  have hne : (limbs x).getD i 0 ≠ 0 := getD_limbs x i hi ▸ ne_zero_of_getLsbD hb
  rw [msbWide, scanHigh_eq _ i (by rwa [length_limbs]) (fun k hk => by rw [getD_limbs x k (by omega), hz k hk]) hne,
    length_limbs, getD_limbs x i hi, highBit_eq _ 64 h hh hb ha]

theorem getD_limbs_reverse (x : Wide) {i : Nat} (hi : i < 8) : (limbs x).reverse.getD i 0 = limb x (7 - i) := by
  rw [List.getD_reverse _ (by rwa [length_limbs]), length_limbs, getD_limbs x _ (by omega)]

/-- The first nonzero limb from limb 7 down and its lowest set bit give the position. -/
theorem lsbWide_of_limb {x : Wide} {i l : Nat} (hi : i < 8) (hl : l < 64) (hz : ∀ k, i < k → k < 8 → limb x k = 0)
    (hb : (limb x i).getLsbD l = true) (ha : ∀ b < l, (limb x i).getLsbD b = false) :
    lsbWide x = (64 * (7 - i) + l : Nat) := by
  have hlimb : (limbs x).reverse.getD (7 - i) 0 = limb x i := by
    rw [getD_limbs_reverse x (by omega), Nat.sub_sub_self (by omega)]
  have hlow : ∀ k < 7 - i, (limbs x).reverse.getD k 0 = 0 := fun k hk => by
    rw [getD_limbs_reverse x (by omega), hz _ (by omega) (by omega)]
  rw [lsbWide, scanLow_eq _ 0 (7 - i) (by rw [List.length_reverse, length_limbs]; omega) hlow
    (hlimb ▸ ne_zero_of_getLsbD hb), hlimb, lowBit_eq _ 64 l le_rfl (by omega) hl hb ha, Nat.zero_add]

theorem limb_zero (i : Nat) : limb 0#512 i = 0#64 := BitVec.extractLsb'_zero ..

theorem eq_zero_of_limbs {x : Wide} (h : ∀ i < 8, limb x i = 0) : x = 0 :=
  eq_of_limbs _ _ fun i hi => (h i hi).trans (limb_zero i).symm

theorem msbWide_zero : msbWide 0 = -1 := scanHigh_zero _ (by simp [limbs, limb_zero])

theorem lsbWide_zero : lsbWide 0 = -1 := scanLow_zero _ 0 (by simp [limbs, limb_zero])

/-! ### MSB and LSB -/

/-- Settles O53: RES is the two's complement of the body's position (R27). -/
theorem msbFindsHighestBit : Obligations.MsbFindsHighestBit := by
  refine ⟨rfl, fun s hs => completes_of_resOnly (res := resOfInt (msbWide (s.wide 0))) rfl hs rfl
    fun t hr => ⟨fun hz => ?_, fun i hi h hh hz hb ha => ?_⟩⟩
  · rw [hr, eq_zero_of_limbs hz, msbWide_zero, resOfInt_neg_one]
  · rw [hr, msbWide_of_limb hi hh hz hb ha, resOfInt, BitVec.ofInt_natCast]

/-- Settles O54: RES is the two's complement of the body's position (R27). -/
theorem lsbFindsLowestBit : Obligations.LsbFindsLowestBit := by
  refine ⟨rfl, fun s hs => completes_of_resOnly (res := resOfInt (lsbWide (s.wide 0))) rfl hs rfl
    fun t hr => ⟨fun hz => ?_, fun i hi l hl hz hb ha => ?_⟩⟩
  · rw [hr, eq_zero_of_limbs hz, lsbWide_zero, resOfInt_neg_one]
  · rw [hr, lsbWide_of_limb hi hl hz hb ha, resOfInt, BitVec.ofInt_natCast]

/-! ### The position in the whole value

Bit `p` of the value is bit `p % 64` of limb `7 - p / 64` (R12). -/

theorem limb_getLsbD_of_position (x : Wide) {p : Nat} (hp : p < 512) :
    (limb x (7 - p / 64)).getLsbD (p % 64) = x.getLsbD p := by
  rw [limb_getLsbD _ _ _ (Nat.mod_lt _ (by decide))]
  congr 1
  omega

theorem limb_eq_zero_of_getLsbD {x : Wide} {i : Nat} (h : ∀ b < 64, x.getLsbD (64 * (7 - i) + b) = false) :
    limb x i = 0 :=
  BitVec.eq_of_getLsbD_eq fun b hb => by rw [limb_getLsbD _ _ _ hb, h b hb]; exact BitVec.getLsbD_zero.symm

theorem msbWide_of_highest {x : Wide} {p : Nat} (hp : x.getLsbD p = true) (ha : ∀ b, p < b → x.getLsbD b = false) :
    msbWide x = p := by
  have hlt : p < 512 := BitVec.lt_of_getLsbD hp
  have hz : ∀ k < 7 - p / 64, limb x k = 0 := fun k hk => limb_eq_zero_of_getLsbD fun b _ => ha _ (by omega)
  have hhigh : ∀ b, p % 64 < b → (limb x (7 - p / 64)).getLsbD b = false := fun b hb => by
    by_cases h : b < 64
    · rw [limb_getLsbD _ _ _ h, ha _ (by omega)]
    · exact BitVec.getLsbD_of_ge _ _ (by omega)
  rw [msbWide_of_limb (by omega) (Nat.mod_lt _ (by decide)) hz ((limb_getLsbD_of_position x hlt).trans hp) hhigh]
  congr 1
  omega

theorem lsbWide_of_lowest {x : Wide} {p : Nat} (hp : x.getLsbD p = true) (ha : ∀ b < p, x.getLsbD b = false) :
    lsbWide x = p := by
  have hlt : p < 512 := BitVec.lt_of_getLsbD hp
  have hz : ∀ k, 7 - p / 64 < k → k < 8 → limb x k = 0 := fun k hk hk8 =>
    limb_eq_zero_of_getLsbD fun b _ => ha _ (by omega)
  have hlow : ∀ b < p % 64, (limb x (7 - p / 64)).getLsbD b = false := fun b hb => by
    rw [limb_getLsbD _ _ _ (by omega), ha _ (by omega)]
  rw [lsbWide_of_limb (by omega) (Nat.mod_lt _ (by decide)) hz ((limb_getLsbD_of_position x hlt).trans hp) hlow]
  congr 1
  omega

/-! ### The scans by magnitude, and their laws (R183) -/

theorem msbWide_eq_log2 {x : Wide} (hx : x.toNat ≠ 0) : msbWide x = (Nat.log2 x.toNat : Int) :=
  msbWide_of_highest (Nat.testBit_log2 hx) fun _ hb => Nat.testBit_lt_two_pow ((Nat.log2_lt hx).1 hb)

/-- The power of two in the value is its trailing zero bits. -/
theorem lsbWide_of_two_pow_mul {x : Wide} {k m : Nat} (hm : Odd m) (hx : x.toNat = 2 ^ k * m) : lsbWide x = k := by
  have hbit : ∀ b, x.getLsbD b = (decide (b ≥ k) && m.testBit (b - k)) := fun b => by
    rw [BitVec.getLsbD, hx, Nat.testBit_two_pow_mul]
  refine lsbWide_of_lowest ?_ fun b hb => ?_
  · rw [hbit, Nat.sub_self, Nat.testBit_zero, Nat.odd_iff.1 hm, decide_eq_true le_rfl]
    rfl
  · rw [hbit, decide_eq_false (Nat.not_le.2 hb), Bool.false_and]

theorem resOfInt_toNat {p : Nat} (hp : p < 512) : (resOfInt p).toNat = p := by
  rw [resOfInt, BitVec.ofInt_natCast, BitVec.toNat_ofNat, Nat.mod_eq_of_lt (by omega)]

theorem div_two_pow_log2 {n : Nat} (hn : n ≠ 0) : n / 2 ^ n.log2 = 1 :=
  Nat.div_eq_of_lt_le (by rw [Nat.one_mul]; exact Nat.log2_self_le hn) (by rw [← Nat.pow_succ']; exact Nat.lt_log2_self)

/-- The highest and the lowest set bit are the same one exactly if there is no other. -/
theorem msbWide_eq_lsbWide_iff {x : Wide} (hx : x.toNat ≠ 0) : msbWide x = lsbWide x ↔ ∃ k < 512, x.toNat = 2 ^ k := by
  rw [msbWide_eq_log2 hx]
  constructor
  · intro h
    obtain ⟨k, m, hm, e⟩ := Nat.exists_eq_two_pow_mul_odd hx
    have hlog : x.toNat.log2 = k := Int.ofNat_inj.1 (h.trans (lsbWide_of_two_pow_mul hm e))
    have hone : m = 1 := by
      have := div_two_pow_log2 hx
      rwa [hlog, e, Nat.mul_div_cancel_left _ (Nat.two_pow_pos k)] at this
    exact ⟨k, hlog ▸ (Nat.log2_lt hx).2 x.isLt, by rw [e, hone, Nat.mul_one]⟩
  · rintro ⟨k, -, e⟩
    rw [lsbWide_of_two_pow_mul odd_one (e.trans (Nat.mul_one _).symm), e, Nat.log2_two_pow]

/-- Settles O55: MSB is the logarithm, and LSB the exponent of two in the value. -/
theorem bitScanLaws : Obligations.BitScanLaws := by
  refine ⟨msbWide_zero, lsbWide_zero, fun x hne => ?_⟩
  have hx : x.toNat ≠ 0 := fun h => hne (BitVec.eq_of_toNat_eq (h.trans BitVec.toNat_zero.symm))
  obtain ⟨k, m, hm, e⟩ := Nat.exists_eq_two_pow_mul_odd hx
  have hlog : x.toNat.log2 < 512 := (Nat.log2_lt hx).2 x.isLt
  have hle : k ≤ x.toNat.log2 := (Nat.le_log2 hx).2 (e ▸ Nat.le_mul_of_pos_right _ hm.pos)
  have hmod : x.toNat % 2 ^ k = 0 := by rw [e, Nat.mul_mod_right]
  have hmod' : x.toNat % 2 ^ (k + 1) ≠ 0 := by
    rw [e, Nat.pow_succ, Nat.mul_mod_mul_left, Nat.odd_iff.1 hm, Nat.mul_one]
    exact (Nat.two_pow_pos k).ne'
  have hlsb := lsbWide_of_two_pow_mul hm e
  refine ⟨msbWide_eq_log2 hx, ⟨k, hlsb, by omega, hmod, hmod'⟩, ?_, ?_, ?_, msbWide_eq_lsbWide_iff hx⟩
  · rw [hlsb, msbWide_eq_log2 hx]
    exact Int.ofNat_le.2 hle
  · apply BitVec.eq_of_toNat_eq
    rw [msbWide_eq_log2 hx, shrWide_toNat, resOfInt_toNat hlog, div_two_pow_log2 hx]
    exact (BitVec.toNat_one (by decide)).symm
  · apply BitVec.eq_of_toNat_eq
    rw [hlsb, shlWide_shrWide_toNat, resOfInt_toNat (by omega), hmod, Nat.sub_zero]

end Sys2Proof.Machine

/-! Proofs of the multiplicative family: MUL (R200), MULLO (R201) and DIV (R202), the limb view of the product (R200) and the
laws of R204. -/

namespace Sys2Proof.Machine

open Sys2Proof

/-! ### Two destinations, the second written last (R62, R86) -/

/-- Byte `k` of limb `i` in a value's buffer, as a number (R53). -/
theorem bufferByte_eq_ofNat (v : Wide) (i : Nat) {k : Nat} (hk : k < 8) :
    bufferByte v (8 * i + k) = BitVec.ofNat 8 (v.toNat / 2 ^ (64 * (7 - i) + 8 * k)) := by
  have hdiv : (8 * i + k) / 8 = i := by omega
  have hmod : (8 * i + k) % 8 = k := by omega
  rw [bufferByte, hdiv, hmod, BitVec.extractLsb', Nat.shiftRight_eq_div_pow]

section

variable {m : ArgMap} (r : Result) {s : State} (hd : m.dests = [0, 1])
include hd

theorem wide_one_complete_two : (complete m r s).wide 1 = r.dest1 := by
  rw [State.wide, mem_complete_two m r s hd]
  exact readWide_writeWide_same _ _ _

theorem read_complete_two_of_not_inBuffer {k : Nat} (hk : k < 64) (h : ¬ InBuffer s 1 (s.addr 0 + k)) :
    (complete m r s).mem.read (s.addr 0 + k) = bufferByte r.dest0 k := by
  rw [InBuffer] at h
  rw [mem_complete_two m r s hd, read_writeWide, if_neg h, read_writeWide, if_pos ⟨by omega, by omega⟩,
    Nat.add_sub_cancel_left]

theorem wide_zero_complete_two (h : ∀ a, InBuffer s 0 a → ¬ InBuffer s 1 a) : (complete m r s).wide 0 = r.dest0 :=
  readWide_eq _ _ _ fun k hk => read_complete_two_of_not_inBuffer r hd hk (h _ ⟨by omega, by omega⟩)

end

/-- A command with destinations at ARG0 and ARG1 completes with its body's values, given as numbers: ARG1's buffer in full,
ARG0's where ARG1's does not cover it. -/
theorem completes_of_two {op : Instr} {s : State} {d₀ d₁ : Wide} {n₀ n₁ : Nat} (hd : op.argMap.dests = [0, 1])
    (h : BuffersReady s op.argMap.buffers) (hb : bodyOf op (snapshot op.argMap s) = .two d₀ d₁) (h₀ : d₀.toNat = n₀)
    (h₁ : d₁.toNat = n₁) :
    Completes op s [0, 1] fun t =>
      (t.wide 1).toNat = n₁ ∧
      (∀ i < 8, ∀ k < 8, ¬ InBuffer s 1 (s.addr 0 + 8 * i + k) →
        t.mem.read (s.addr 0 + 8 * i + k) = BitVec.ofNat 8 (n₀ / 2 ^ (64 * (7 - i) + 8 * k))) ∧
      ((∀ a, InBuffer s 0 a → ¬ InBuffer s 1 a) → (t.wide 0).toNat = n₀) ∧
      t.res = 0 := by
  subst h₀ h₁
  refine hd ▸ completes_of_ready op s _ _ h hb ⟨?_, fun i hi k hk hout => ?_, fun hdisj => ?_, rfl⟩
  · rw [wide_one_complete_two _ hd]
  · rw [Nat.add_assoc] at hout ⊢
    rw [read_complete_two_of_not_inBuffer _ hd (by omega) hout, bufferByte_eq_ofNat _ _ hk]
  · rw [wide_zero_complete_two _ hd hdisj]

/-! ### MUL, MULLO and DIV -/

/-- Settles O56: the two values written are the halves of the exact product. -/
theorem mulWritesFullProduct : Obligations.MulWritesFullProduct :=
  ⟨rfl, fun _ h => completes_of_two rfl h rfl (productLow_toNat _ _) (productHigh_toNat _ _)⟩

/-- Settles O57: the value written is the low half, and RES the body's overflow bit. -/
theorem mulloWritesLowProduct : Obligations.MulloWritesLowProduct := by
  refine ⟨rfl, fun s h => completes_of_one rfl h rfl fun t hw hr => ?_⟩
  rw [hw, hr]
  exact ⟨productLow_toNat _ _, resOfBit_decide _⟩

/-- DIV's body on the values of its two source buffers (R60, R202). -/
theorem bodyOf_div_snapshot (s : State) : bodyOf .div (snapshot (Instr.argMap .div) s) =
    if s.wide 3 = 0 then .divideByZero else .two (quotient (s.wide 2) (s.wide 3)) (remainder (s.wide 2) (s.wide 3)) := by
  rw [bodyOf, divBody_eq, snapshot_wide _ _ 2 rfl, snapshot_wide _ _ 3 rfl]

/-- DIV with ready buffers and a zero divisor records DIVIDE_BY_ZERO and does nothing else (R202, R242). -/
theorem exec_div_of_zero {s : State} (h : BuffersReady s (Instr.argMap .div).buffers) (h0 : s.wide 3 = 0) :
    exec .div s = .next (s.raise .divideByZero 0) := by
  rw [exec_eq_execute, execute_ready _ _ _ h, bodyOf_div_snapshot, if_pos h0]

/-- Settles O58: the divisor decides between the body's two values and DIVIDE_BY_ZERO. -/
theorem divWritesQuotientAndRemainder : Obligations.DivWritesQuotientAndRemainder := by
  refine ⟨rfl, fun s h => ⟨fun hne => ?_, fun h0 => ⟨_, exec_div_of_zero h h0, rfl, rfl, rfl⟩⟩⟩
  exact completes_of_two rfl h ((bodyOf_div_snapshot s).trans (if_neg hne)) (quotient_toNat _ _) (remainder_toNat _ _)

/-! ### The product by limbs (R200) -/

/-- The number the limbs write is the sum of the limbs at their weights, the first the most significant (R12). -/
theorem natOfLimbs_eq_sum (ls : List Limb) :
    natOfLimbs ls = ((List.range ls.length).map fun i => (ls.getD i 0).toNat * 2 ^ (64 * (ls.length - 1 - i))).sum := by
  induction ls with
  | nil => rfl
  | cons l ls ih =>
    have hweight (i : Nat) : ls.length - 1 - i = ls.length - (i + 1) := by omega
    rw [natOfLimbs_cons, ih, List.length_cons, List.range_succ_eq_map]
    simp [hweight, Function.comp_def]

theorem toNat_eq_sum_limbs (x : Wide) :
    x.toNat = ((List.range 8).map fun i => (limb x i).toNat * 2 ^ (64 * (7 - i))).sum := by
  rw [← natOfLimbs_limbs, natOfLimbs_eq_sum, length_limbs]
  refine congrArg List.sum (List.map_congr_left fun i hi => ?_)
  rw [getD_limbs x i (List.mem_range.1 hi)]

theorem product_eq_sum_limbs (x y : Wide) :
    product x y = ((List.range 8).map fun i => ((List.range 8).map fun j =>
      (limb x i).toNat * (limb y j).toNat * 2 ^ (64 * ((7 - i) + (7 - j)))).sum).sum := by
  rw [product, toNat_eq_sum_limbs x, toNat_eq_sum_limbs y, ← List.sum_map_mul_right]
  refine congrArg List.sum (List.map_congr_left fun i _ => ?_)
  rw [← List.sum_map_mul_left]
  refine congrArg List.sum (List.map_congr_left fun j _ => ?_)
  rw [Nat.mul_add, Nat.pow_add, Nat.mul_mul_mul_comm]

/-! ### The laws of the Multiplicative Engine (R204) -/

theorem productLow_toNat_of_lt {x y : Wide} (h : product x y < 2 ^ 512) : (productLow x y).toNat = product x y := by
  rw [productLow_toNat, Nat.mod_eq_of_lt h]

theorem productHigh_eq_zero_iff (x y : Wide) : productHigh x y = 0 ↔ product x y < 2 ^ 512 := by
  rw [← BitVec.toNat_inj, productHigh_toNat, BitVec.ofNat_eq_ofNat, BitVec.toNat_zero,
    Nat.div_eq_zero_iff_lt (Nat.two_pow_pos 512)]

theorem product_one (x : Wide) : product x 1 = x.toNat := by
  rw [product, BitVec.ofNat_eq_ofNat, BitVec.toNat_one (by decide), Nat.mul_one]

theorem productLow_one (x : Wide) : productLow x 1 = x :=
  BitVec.eq_of_toNat_eq ((productLow_toNat_of_lt (product_one x ▸ x.isLt)).trans (product_one x))

theorem productHigh_one (x : Wide) : productHigh x 1 = 0 := (productHigh_eq_zero_iff x 1).2 (product_one x ▸ x.isLt)

theorem quotient_self {y : Wide} (hy : 0 < y.toNat) : quotient y y = 1 :=
  BitVec.eq_of_toNat_eq (by rw [quotient_toNat, Nat.div_self hy, BitVec.ofNat_eq_ofNat, BitVec.toNat_one (by decide)])

theorem remainder_self (y : Wide) : remainder y y = 0 :=
  BitVec.eq_of_toNat_eq (by rw [remainder_toNat, Nat.mod_self, BitVec.ofNat_eq_ofNat, BitVec.toNat_zero])

/-- The quotient times the divisor never exceeds the dividend, so it has no high half. -/
theorem product_quotient_lt (x y : Wide) : product (quotient x y) y < 2 ^ 512 := by
  rw [product, quotient_toNat]
  exact Nat.lt_of_le_of_lt (Nat.div_mul_le_self _ _) x.isLt

theorem addWide_quotient_remainder (x y : Wide) :
    addWide (productLow (quotient x y) y) (remainder x y) = (x, false) := by
  refine addWide_eq_of_exact ?_
  rw [productLow_toNat_of_lt (product_quotient_lt x y), product, quotient_toNat, remainder_toNat, Nat.div_add_mod',
    Bool.toNat_false, Nat.mul_zero, Nat.add_zero]

/-- Settles O59: the laws are those of the exact numbers, which fit the halves. -/
theorem multiplicativeLaws : Obligations.MultiplicativeLaws := by
  refine fun x y => ⟨product_eq_sum_limbs x y, ?_, productLow_one x, productHigh_one x, fun hne => ?_⟩
  · rw [Ne, productHigh_eq_zero_iff, Nat.not_lt]
  · have hy : 0 < y.toNat := Nat.pos_of_ne_zero fun h => hne (BitVec.eq_of_toNat_eq (h.trans BitVec.toNat_zero.symm))
    refine ⟨quotient_self hy, remainder_self y, ?_, ?_, addWide_quotient_remainder x y⟩
    · rw [remainder_toNat]
      exact Nat.mod_lt _ hy
    · exact (productHigh_eq_zero_iff _ _).2 (product_quotient_lt x y)

end Sys2Proof.Machine

/-! Proofs of the exceptions family: the fatal state (R241), DIVIDE_BY_ZERO (R242), the order of the errors (R244), confinement
(R235), the idle CORE (R252), and host threads that do not serialize (R250, R268). -/

namespace Sys2Proof.Machine

open Sys2Proof

/-! ### The fatal state (R241) -/

/-- STATUS, CMD and RES are as they were: what nothing but a reset changes in the fatal state (R241). -/
def KeepsControl (s t : State) : Prop := t.status = s.status ∧ t.cmd = s.cmd ∧ t.res = s.res

/-- Beside a command nothing but a reset changes STATUS, CMD or RES (R67, R262). -/
theorem runConcurrent_keepsControl {c : Concurrent} {s t : State} (hc : c ≠ .reset) (h : runConcurrent c s = .next t) :
    KeepsControl s t := by
  obtain ⟨_, _, -, rfl⟩ | ⟨_, _, -, -, rfl⟩ | ⟨_, -, rfl⟩ | ⟨rfl, -⟩ := runConcurrent_cases h
  · exact ⟨rfl, rfl, rfl⟩
  · exact ⟨rfl, rfl, rfl⟩
  · exact ⟨rfl, rfl, rfl⟩
  · exact absurd rfl hc

theorem runAll_keepsControl {cs : List Concurrent} {s t : State} (hr : Concurrent.reset ∉ cs)
    (h : runAll cs s = .next t) : KeepsControl s t := by
  refine runAll_keeps (KeepsControl s) cs (fun c hc u v hu hv => ?_) s t ⟨rfl, rfl, rfl⟩ h
  obtain ⟨hst, hcmd, hres⟩ := runConcurrent_keepsControl (fun e => hr (e ▸ hc)) hv
  obtain ⟨hst', hcmd', hres'⟩ := hu
  exact ⟨hst.trans hst', hcmd.trans hcmd', hres.trans hres'⟩

/-- A CMD write in the fatal state is ignored; only its company happens (R241). -/
theorem writeCmd_of_faulted {s : State} (hf : Faulted s) (v : Word) (during : List Concurrent) :
    writeCmd v during s = runAll during s := if_pos hf

theorem writeRegister_keepsControl {thread : Nat} {r : Reg} {v : Word} {during : List Concurrent} {s t : State}
    (hf : Faulted s) (hr : Concurrent.reset ∉ during) (h : writeRegister thread r v during s = .next t) :
    KeepsControl s t := by
  cases r with
  | cmd =>
    rw [writeRegister, writeCmd_of_faulted (s := { s with argOwner := none }) hf] at h
    split at h
    · exact runAll_keepsControl (s := { s with argOwner := none }) hr h
    · cases h
  | arg j =>
    rw [writeRegister] at h
    split at h
    · simpa [KeepsControl] using runAll_keepsControl hr h
    · cases h
  | res | status | cfg => exact runAll_keepsControl hr h

/-- In the fatal state no event without a reset changes STATUS, CMD or RES (R241). -/
theorem runEvent_keepsControl {e : Event} {s t : State} (hf : Faulted s) (he : eventResets e = false)
    (h : runEvent e s = .next t) : KeepsControl s t := by
  cases e with
  | read a n =>
    obtain ⟨r, h⟩ | ⟨_, h⟩ := hostAccess_next h <;> cases h <;> exact ⟨rfl, rfl, rfl⟩
  | write thread a data during =>
    have hr : Concurrent.reset ∉ during := by simpa [eventResets] using he
    obtain ⟨r, h⟩ | ⟨_, h⟩ := hostAccess_next h
    · exact writeRegister_keepsControl hf hr h
    · exact runAll_keepsControl (s := { s with mem := s.mem.store a data }) hr h
  | reset => cases he
  | remap regions =>
    cases h
    exact ⟨rfl, rfl, rfl⟩

/-- A CMD write in the fatal state, by the thread that may write, only takes the event and ends the argument sequence (R241,
log entry 7). -/
theorem step_cmd_write_of_faulted {s : State} {thread : Nat} {w : Word} {rest : List Event} (hf : Faulted s)
    (hp : s.pending = cmdWrite s.platform thread w :: rest) (ho : s.argOwner.getD thread = thread) :
    step s = .next { s with pending := rest, argOwner := none } := by
  rw [step_write_register s thread 0 .cmd w [] rest rfl hp]
  exact (if_pos ho).trans (writeCmd_of_faulted (s := { s with pending := rest, argOwner := none }) hf w [])

/-- Settles O10: one rule per kind of event, and the frame of all that resets nothing. -/
theorem fatalStateIgnoresCommands : Obligations.FatalStateIgnoresCommands := by
  intro s e rest hf hp
  refine ⟨?_, ?_, ?_, fun he t ht => ?_, ?_⟩
  · rintro thread w rfl ho
    exact step_cmd_write_of_faulted hf hp ho
  · rintro thread j v rfl ho
    exact ⟨_, step_arg_write hp ho, (State.arg_setArg s j j v).trans (if_pos rfl)⟩
  · rintro off r hr rfl
    exact step_read_register s off r rest hr hp
  · rw [step_cons s e rest hp] at ht
    exact runEvent_keepsControl (s := { s with pending := rest }) hf he ht
  · rintro rfl
    exact ⟨{ s with pending := rest }.coreReset, (step_cons s .reset rest hp).trans rfl, rfl⟩

/-! ### DIVIDE_BY_ZERO and the order of the errors (R242, R244) -/

/-- Settles O30: recording the error is all that DIV does. -/
theorem zeroDivisorEndsInDivideByZero : Obligations.ZeroDivisorEndsInDivideByZero := by
  intro s h h0
  refine ⟨_, exec_div_of_zero h h0, ?_, rfl, rfl, raise_keepsRest _ _ _, rfl⟩
  simp [State.raise, ErrCode.isFatal]

/-- A command ends in one way only, so a fatal ending is the error its next state shows (R238, R239). -/
theorem EndsFatal.error {i : Instr} {s t : State} {dests : List (Fin 4)} {code : ErrCode} {j : Fin 4}
    (h : EndsFatal i s dests code j) (ht : exec i s = .next t) : t.status.err = code ∧ t.status.errArg = j := by
  obtain ⟨u, hu, hst, -⟩ := h
  cases hu.symm.trans ht
  simp [hst]

/-- With its buffers ready a command ends in DIVIDE_BY_ZERO if it is DIV with a zero divisor, else in no error (R242). -/
theorem err_of_ready {i : Instr} {s t : State} (h : BuffersReady s i.argMap.buffers) (ht : exec i s = .next t) :
    t.status.err = if i = .div ∧ s.wide 3 = 0 then .divideByZero else .noError := by
  by_cases hz : i = .div ∧ s.wide 3 = 0
  · rw [if_pos hz]
    obtain ⟨rfl, h0⟩ := hz
    cases (exec_div_of_zero h h0).symm.trans ht
    rfl
  · rw [if_neg hz]
    rw [exec_eq_execute, execute_ready _ _ _ h] at ht
    split at ht
    · cases ht
      rfl
    · rename_i hb
      cases eq_div_of_divideByZero hb
      have h0 : s.wide 3 ≠ 0 := fun h0 => hz ⟨rfl, h0⟩
      rw [bodyOf_div_snapshot, if_neg h0] at hb
      cases hb

/-- Settles O31: an illegal word runs no command; a legal one's checks come in the order of R86. -/
theorem errorPriority : Obligations.ErrorPriority := by
  intro s w rest h
  by_cases hw : ∀ i, decode w ≠ .ok i
  · exact ⟨_, step_illegal h hw, fun _ => rfl, fun i hi => absurd hi (hw i)⟩
  · obtain ⟨i, hi⟩ := not_forall_not.1 hw
    obtain ⟨t, ht⟩ := exec_next i (s.accept w rest)
    refine ⟨t, (step_accepted_alone h hi).trans ht, fun hw => absurd hi (hw i), fun k hk => ?_⟩
    cases hi.symm.trans hk
    exact ⟨fun j hj => (misalignedBufferEndsInAlignment.1 i (s.accept w rest) j hj).error ht,
      fun j hj => (unadmittedBufferEndsInBusError i (s.accept w rest) j hj).error ht,
      fun hb => err_of_ready (s := s.accept w rest) hb ht⟩

/-! ### Confinement (R235, R237) -/

theorem raiseFatal_keepsMemory (s : State) (code : ErrCode) (m : ArgMap) (j : Fin 4) :
    KeepsMemory s (s.raiseFatal code m j) m.dests :=
  fun a ha => read_freeDests s m a fun k hk hb => absurd hb (ha k hk)

/-- A command changes no byte outside its destinations (R235). -/
theorem exec_keepsMemory {i : Instr} {s t : State} (h : exec i s = .next t) : KeepsMemory s t i.argMap.dests := by
  rw [exec_eq_execute] at h
  obtain ⟨j, _, e⟩ | ⟨j, _, _, e⟩ | ⟨_, _, e⟩ | ⟨r, _, _, e⟩ := execute_cases i.argMap (bodyOf i) s <;>
    cases e.symm.trans h
  · exact raiseFatal_keepsMemory _ _ _ _
  · exact raiseFatal_keepsMemory _ _ _ _
  · exact fun _ _ => rfl
  · exact complete_read_outside _ _ _

/-- Only a command that completes writes RES (R237). -/
theorem exec_keepsRes_of_error {i : Instr} {s t : State} (h : exec i s = .next t) (he : t.status.err ≠ .noError) :
    t.res = s.res := by
  rw [exec_eq_execute] at h
  obtain ⟨j, _, e⟩ | ⟨j, _, _, e⟩ | ⟨_, _, e⟩ | ⟨r, _, _, e⟩ := execute_cases i.argMap (bodyOf i) s <;>
    cases e.symm.trans h
  · exact State.freeDests_res _ _
  · exact State.freeDests_res _ _
  · rfl
  · exact absurd rfl he

/-- Settles O32: every way a command ends has the frame of R235. -/
theorem commandsAreConfined : Obligations.CommandsAreConfined := by
  intro i s
  obtain ⟨t, ht⟩ := exec_next i s
  exact ⟨t, ht, exec_keepsRest ht, exec_keepsMemory ht, exec_keepsRes_of_error ht⟩

/-! ### The idle CORE (R252), and interleaved threads (R250, R268) -/

/-- Settles O16. -/
theorem idleChangesNothing : Obligations.IdleChangesNothing := step_nil

/-- Settles O22: a write to CMD or an ARG tests that its thread owns the argument registers. -/
theorem interleavedThreadsAreRefused : Obligations.InterleavedThreadsAreRefused := by
  intro s rest owner thread v ho hne
  have hother : s.argOwner.getD thread ≠ thread := by simpa [ho] using hne.symm
  refine ⟨fun hp => ?_, fun j hp => ?_⟩
  · rw [step_write_register s thread 0 .cmd v [] rest rfl hp]
    exact if_neg hother
  · rw [argWrite, Nat.add_assoc] at hp
    rw [step_write_register s thread _ (.arg j) v [] rest (regAt_arg j) hp]
    exact if_neg hother

end Sys2Proof.Machine

/-! Proofs of the other family: the canonical form of memory (log entry 4), and host accesses that reach neither the window nor
the memory (R34, log entry 8). -/

namespace Sys2Proof.Machine

open Sys2Proof

/-! ### The canonical form of memory -/

/-- At rising addresses a memory reads, at each address it lists, the byte listed there. -/
theorem Memory.read_of_mem {m : Memory} (hm : m.Pairwise fun c d => c.1 < d.1) {c : Host.Cell} (hc : c ∈ m) :
    m.read c.1 = c.2 := by
  induction m with
  | nil => cases hc
  | cons d m ih =>
    obtain ⟨hd, hm⟩ := List.pairwise_cons.1 hm
    rcases List.mem_cons.1 hc with rfl | hc
    · exact (Memory.read_cons _ _ _).trans (if_pos rfl)
    · rw [Memory.read_cons, if_neg (hd c hc).ne]
      exact ih hm hc

/-- A byte that does not read as an unlisted one is listed. -/
theorem Memory.mem_of_read_ne {m : Memory} {a : Nat} (h : m.read a ≠ unlistedByte) : (a, m.read a) ∈ m := by
  induction m with
  | nil => exact absurd rfl h
  | cons d m ih =>
    rw [Memory.read_cons] at h ⊢
    by_cases hd : d.1 = a
    · subst hd
      rw [if_pos rfl]
      exact List.mem_cons_self
    · rw [if_neg hd] at h ⊢
      exact List.mem_cons_of_mem d (ih h)

/-- The cells of a memory in canonical form are told by what it reads. -/
theorem Memory.mem_iff_read {m : Memory} (hm : m.wf) (c : Host.Cell) :
    c ∈ m ↔ m.read c.1 = c.2 ∧ c.2 ≠ unlistedByte := by
  obtain ⟨hsorted, hlisted⟩ := hm
  refine ⟨fun hc => ⟨Memory.read_of_mem hsorted hc, hlisted c hc⟩, fun ⟨hr, hne⟩ => ?_⟩
  have hc : (c.1, m.read c.1) ∈ m := Memory.mem_of_read_ne (hr ▸ hne)
  rwa [hr] at hc

/-- Settles O7: a memory in canonical form lists exactly the bytes that do not read as unlisted ones, in rising order. -/
theorem memoryFormIsCanonical : Obligations.MemoryFormIsCanonical := by
  refine ⟨wf_writeWide, fun m m' hm hm' h => ?_⟩
  have hcells : ∀ c, c ∈ m ↔ c ∈ m' := fun c => by
    rw [Memory.mem_iff_read hm, Memory.mem_iff_read hm', h]
  exact List.Pairwise.eq_of_mem_iff (r := InvImage (· < ·) Prod.fst) hm.1 hm'.1 hcells

/-! ### Host accesses outside the window and the memory (R34, log entry 8) -/

/-- A host access that neither meets the window nor lies in the memory faults. -/
theorem hostAccess_fault {s : State} {a n : Nat} (f : Reg → Out) (g : State → Out)
    (hw : overlapsWindow s.platform a n = false) (hout : 2 ^ s.platform.addrWidth < a + n) :
    hostAccess s a n f g = .fault .noSuchMemory := by
  have hm : inMemory s.platform a n = false := decide_eq_false (Nat.not_le.2 hout)
  simp [hostAccess, memoryAccess, hw, hm]

/-- Settles O24: the access of either kind of event reaches nothing. -/
theorem hostAccessOutsideMemoryFaults : Obligations.HostAccessOutsideMemoryFaults := by
  intro s rest a n hw hout
  refine ⟨fun hp => ?_, ?_⟩
  · rw [step_cons s _ rest hp]
    exact hostAccess_fault (s := { s with pending := rest }) _ _ hw hout
  · rintro thread data during rfl hp
    rw [step_cons s _ rest hp]
    exact hostAccess_fault (s := { s with pending := rest }) _ _ hw hout

end Sys2Proof.Machine
